-- ==== Sys2Proof/Word.lean ====
section
/-! DEFINITION. The words of DSHOT_FBSE: the widths the spec gives (30_encoding.md R60, R64, R68). -/

namespace Sys2Proof

/-- A request word, one operation (30_encoding.md R68). -/
abbrev ReqWord := BitVec 32

/-- A response word (30_encoding.md R72). -/
abbrev RspWord := BitVec 32

/-- A symbol word, the contents of one SYMBUF slot (30_encoding.md R64). -/
abbrev SymWord := BitVec 32

/-- A DShot frame (30_encoding.md R60). -/
abbrev Frame := BitVec 16

/-- A duration in timer ticks, `TICK_W = 16` bits (00_scope.md R7). -/
abbrev Tick := BitVec 16

end Sys2Proof
end

