-- ==== Sys2Proof/Syntax.lean ====
section
/-! DEFINITION. The operations of DSHOT_FBSE, one constructor per row of spec/opcode_table.json. -/

namespace Sys2Proof

/-- One operation with its operands. `command` and `maxSymbols` are mathematical integers, as the abstract rules
have them (30_encoding.md R76, 92_eei_decisions.md D3, D18), so that the range checks of R90 and R111 speak of
values the request word cannot carry too; `Instr.wf` says which operands a request word can carry. -/
inductive Instr where
  /-- BUILD_FRAME (40_frame_builder.md R90). -/
  | buildFrame (command : Int) (telemetry bidirectional : Bool)
  /-- RESET (41_symbol_encoder.md R110); not the hardware reset `hw_rst`. -/
  | reset
  /-- ENCODE_NEXT (41_symbol_encoder.md R111). -/
  | encodeNext (frame : Frame) (maxSymbols : Int)
deriving DecidableEq, Repr

end Sys2Proof
end

