-- ==== Sys2Proof/WellFormed.lean ====
section
/-! DEFINITION. Which operations a request word can carry (30_encoding.md R69 to R71, R76). -/

namespace Sys2Proof

/-- The operands fit their fields of the request word: `command` 16 bits unsigned, `max_symbols` 8 bits unsigned.
A command above 2047 is well formed: it is presented and caught, not truncated (40_frame_builder.md R91). -/
def Instr.wf : Instr → Bool
  | .buildFrame command _ _ => decide (0 ≤ command ∧ command < 65536)
  | .reset => true
  | .encodeNext _ maxSymbols => decide (0 ≤ maxSymbols ∧ maxSymbols < 256)

end Sys2Proof
end

