-- ==== Sys2Proof/Decode.lean ====
section
/-! DEFINITION. Request words to operations and back (30_encoding.md R69 to R76). -/

namespace Sys2Proof

/-- Why a request word is no operation. -/
inductive DecodeError where
  /-- Select code `0b00`, reserved (30_encoding.md R75 (a)). -/
  | reservedSelect
deriving DecidableEq, Repr

/-- The select code `op = req[31:30]` (30_encoding.md R74). -/
def opField (w : ReqWord) : BitVec 2 :=
  w.extractLsb' 30 2

/-- The operation of a request word: total, every reserved bit of a defined format ignored (30_encoding.md R69 to
R71, R74, R75), every integer operand zero-extended (R76). -/
def decode (w : ReqWord) : Except DecodeError Instr :=
  if opField w = 0b01#2 then
    .ok (.buildFrame ((w.extractLsb' 0 16).toNat : Int) (w.getLsbD 16) (w.getLsbD 17))
  else if opField w = 0b10#2 then
    .ok .reset
  else if opField w = 0b11#2 then
    .ok (.encodeNext (w.extractLsb' 0 16) ((w.extractLsb' 16 8).toNat : Int))
  else
    .error .reservedSelect

/-- The select code of each operation (30_encoding.md R74). -/
def Instr.select : Instr → BitVec 2
  | .buildFrame _ _ _ => 0b01#2
  | .reset => 0b10#2
  | .encodeNext _ _ => 0b11#2

/-- The request word of an operation, reserved bits written 0 (30_encoding.md R69 to R71). It stands for a
well-formed operation only; an operand outside its field is cut to the field. -/
def encode : Instr → ReqWord
  | .buildFrame command telemetry bidirectional =>
      0b01#2 ++ 0#12 ++ BitVec.ofBool bidirectional ++ BitVec.ofBool telemetry ++ BitVec.ofInt 16 command
  | .reset => 0b10#2 ++ 0#30
  | .encodeNext frame maxSymbols => 0b11#2 ++ 0#6 ++ BitVec.ofInt 8 maxSymbols ++ frame

/-- The bits of a request word that an operation of this kind defines: select code and operand fields. The others
are the format's reserved bits (30_encoding.md R69 to R71). -/
def Instr.definedBits : Instr → ReqWord
  | .buildFrame _ _ _ => 0xC003FFFF#32
  | .reset => 0xC0000000#32
  | .encodeNext _ _ => 0xC0FFFFFF#32

/-- `mask` of every row of spec/opcode_table.json. -/
def tableMask : ReqWord := 0xC0000000#32

/-- `match` of the row of spec/opcode_table.json an operation belongs to. -/
def Instr.tableMatch : Instr → ReqWord
  | .buildFrame _ _ _ => 0x40000000#32
  | .reset => 0x80000000#32
  | .encodeNext _ _ => 0xC0000000#32

/-- What the decoder reads from a table word: request words are one 32-bit word, numbered as the table numbers
them, and every bit above `nbits` is 0. -/
def decodeTableWord (nbits w : Nat) : Option Instr :=
  match decode (BitVec.ofNat 32 (w % 2 ^ nbits)) with
  | .ok i => some i
  | .error _ => none

end Sys2Proof
end

