-- ==== Sys2Proof/Config.lean ====
section
/-! DEFINITION. The configuration: the straps of one instance, their constraints (00_scope.md R8), and the
parameters the spec leaves OPEN, as constants without a value (00_scope.md R7, 92_eei_decisions.md). -/

namespace Sys2Proof

/-- The configuration inputs of one instance (10_state.md R29, 30_encoding.md R68): five tick counts, and the
channel's `BIDIR`, which no operation reads. -/
structure Straps where
  t1h   : Tick
  t1l   : Tick
  t0h   : Tick
  t0l   : Tick
  tGap  : Tick
  bidir : Bool
deriving DecidableEq, Repr, Inhabited

/-- The bit period in ticks, `T_BIT = T1H + T1L` (00_scope.md R7), as an unbounded number. -/
def Straps.tBit (st : Straps) : Nat :=
  st.t1h.toNat + st.t1l.toNat

/-- 00_scope.md R8 (a): both bit symbols last one bit period; R8 (d): no duration is zero (the upper bound 65535
is the width of a `Tick`). -/
abbrev Straps.Legal (st : Straps) : Prop :=
  st.t1h.toNat + st.t1l.toNat = st.t0h.toNat + st.t0l.toNat ∧
  1 ≤ st.t1h.toNat ∧ 1 ≤ st.t1l.toNat ∧ 1 ≤ st.t0h.toNat ∧ 1 ≤ st.t0l.toNat ∧ 1 ≤ st.tGap.toNat

/-- 00_scope.md R8 (b), in exact arithmetic: `|T1H - 3*T_BIT/4| <= 1` and `|T0H - 3*T_BIT/8| <= 1`. It holds of a
configuration that keeps the protocol's default ratios, not of every legal one. -/
abbrev Straps.DefaultRatios (st : Straps) : Prop :=
  (4 * (st.t1h.toNat : Int) - 3 * (st.tBit : Int)).natAbs ≤ 4 ∧
  (8 * (st.t0h.toNat : Int) - 3 * (st.tBit : Int)).natAbs ≤ 8

/-- 00_scope.md R8 (c): `T_GAP >= ceil(t_idle_min * F_TICK)`, with `t_idle_min` in nanoseconds and `F_TICK` in Hz. -/
abbrev Straps.GapCoversIdle (st : Straps) (tIdleMinNs fTickHz : Nat) : Prop :=
  tIdleMinNs * fTickHz ≤ st.tGap.toNat * 1000000000

/-- The quotient rounded half up. -/
def roundDiv (a b : Nat) : Nat :=
  (2 * a + b) / (2 * b)

/-- The recommended derivation of the tick counts from `F_TICK` and `BAUD` (00_scope.md R8 (e)); no rule of the
machine depends on it. -/
def Straps.derive (fTickHz baud : Nat) (tGap : Tick) (bidir : Bool) : Straps :=
  let tBit := roundDiv fTickHz baud
  let t1h := roundDiv (3 * tBit) 4
  let t0h := roundDiv (3 * tBit) 8
  { t1h := BitVec.ofNat 16 t1h, t1l := BitVec.ofNat 16 (tBit - t1h),
    t0h := BitVec.ofNat 16 t0h, t0l := BitVec.ofNat 16 (tBit - t0h), tGap := tGap, bidir := bidir }

/-- The reference configuration REF80 of the spec's examples (00_scope.md R9); not the hardware's. REF80 is tick
counts only: the spec gives it no `BIDIR`, which R7 leaves OPEN, so `BIDIR` is an argument here. -/
def Straps.ref80 (bidir : Bool) : Straps :=
  { t1h := 60, t1l := 20, t0h := 30, t0l := 50, tGap := 1200, bidir := bidir }

namespace Config

/-- OPEN: the straps each channel is wired with, before any constraint (00_scope.md R7). No value is known. -/
opaque wiredStraps : Nat → Straps

/-- OPEN: how many channels there are beside channel 0, so that `NCH >= 1` (00_scope.md R7). -/
opaque moreChannels : Nat

/-- OPEN: how many slots each channel's SYMBUF has beside slot 0, so that `SYMBUF_CAP >= 1` (00_scope.md R7). -/
opaque moreSlots : Nat → Nat

/-- OPEN: the transmitter's tick frequency in Hz; the block never uses it (00_scope.md R7). -/
opaque fTick : Nat

/-- OPEN: the bit rate in bits/s; the block never uses it (00_scope.md R7). -/
opaque baud : Nat

/-- OPEN: the protocol's minimum idle time in nanoseconds (00_scope.md R8 (c), 91_not_in_source.md N6). -/
opaque idleMinNs : Nat

/-- FREE VALUE: what the `bit_index` register holds after hardware reset (10_state.md R32: unspecified). No
operation reads it. Log entry 5. -/
opaque bitIndexAfterHwReset : BitVec 5

/-- FREE VALUE: what the `gap_emitted` register holds after hardware reset (10_state.md R32: unspecified). No
operation reads it. Log entry 5. -/
opaque gapEmittedAfterHwReset : Bool

/-- The straps of channel `ch` at power-on: any tick counts that meet 00_scope.md R8 (a) and (d), any `BIDIR`, and no
more is known of them. (Wired tick counts that break the constraint are outside the spec,
93_implementation_defined.md U7, and those of REF80 stand for them; `BIDIR` stays as wired. Log entry 7, DESIGN
CHOICE.) -/
def straps (ch : Nat) : Straps :=
  if (wiredStraps ch).Legal then wiredStraps ch else Straps.ref80 (wiredStraps ch).bidir

/-- The capacity of channel `ch`'s SYMBUF at power-on, at least one slot. -/
def symbufCap (ch : Nat) : Nat :=
  moreSlots ch + 1

end Config

end Sys2Proof
end

