-- ==== Sys2Proof/Machine/State.lean ====
section
/-! DEFINITION. The state of the machine: the block instances with their ports, their Encoder State and their
SYMBUF, and what the outside does next; why a step can stop; the state after reset. -/

namespace Sys2Proof.Machine

/-- The named state of the sequencer (10_state.md R22): the primary description of the Encoder State, whose
registers `bit_index`, `gap_emitted` and `armed` it encodes (views in Machine/Flags.lean). -/
inductive Phase where
  /-- Created, no RESET performed since hardware reset; it carries no register values (10_state.md R32). -/
  | awaitingReset
  /-- `i` bit symbols emitted; the bit at transmission index `i` is next. -/
  | emittingBits (i : Fin 16)
  /-- All 16 bit symbols emitted, the gap symbol not yet. -/
  | emittingGap
  /-- All 17 symbols emitted. -/
  | done
deriving DecidableEq, Repr

/-- A pulse symbol: high for `high` ticks, then low for `low` ticks (30_encoding.md R63). -/
structure Symbol where
  high : Tick
  low  : Tick
deriving DecidableEq, Repr

/-- The three error kinds, and no other (60_exceptions.md R140, R144). -/
inductive ErrorKind where
  /-- Raised by BUILD_FRAME (60_exceptions.md R141). -/
  | invalidCommand
  /-- Raised by ENCODE_NEXT (60_exceptions.md R142). -/
  | encoderExhausted
  /-- Raised by ENCODE_NEXT (60_exceptions.md R143). -/
  | bufferTooSmall
deriving DecidableEq, Repr

/-- The abstract result of an operation, which is what is normative (30_encoding.md R72); the response word that
carries it is `Response.word`. An error carries no frame and no symbols. -/
inductive Response where
  /-- BUILD_FRAME without error: the built frame. -/
  | frame (f : Frame)
  /-- RESET: nothing. -/
  | nothing
  /-- ENCODE_NEXT without error: the symbols written by this call, in slot order, and `done`. -/
  | encoded (symbols : List Symbol) (done : Bool)
  /-- The operation raised this error. -/
  | error (e : ErrorKind)
deriving DecidableEq, Repr

/-- SYMBUF: its written slots, (slot number, symbol word), slot numbers strictly rising. A slot is the smallest
unit there is (20_memory.md R41, R44); an unlisted slot has no value the block gives it (20_memory.md R43, log
entry 2). -/
abbrev Memory := List (Nat × SymWord)

/-- One block instance with its ports, and the symbol buffer its caller supplies. -/
structure Channel where
  /-- The Encoder State (10_state.md R22). -/
  phase   : Phase
  /-- The configuration inputs `t1h .. t_gap` and `BIDIR` (10_state.md R29). -/
  straps  : Straps
  /-- `SYMBUF_CAP` (20_memory.md R41): the caller's property. -/
  cap     : Nat
  /-- The contents of SYMBUF (20_memory.md R40): the caller's memory. -/
  symbuf  : Memory
  /-- The `hw_rst` input (70_reset_and_hazards.md R170). -/
  hwRst   : Bool
  /-- The request port inputs: `some w` is `req_valid = 1` with `req = w` (70_reset_and_hazards.md R172). -/
  req     : Option ReqWord
  /-- The response port: `some r` is `rsp_valid = 1` with the word of `r` (70_reset_and_hazards.md R173). -/
  rsp     : Option Response
  /-- The SYMBUF write port: the writes `(sym_addr, sym_wdata)` of this instance's latest step, in order
  (70_reset_and_hazards.md R174). -/
  strobes : List (BitVec 5 × SymWord)
deriving DecidableEq, Repr

/-- One thing the outside does to one channel (00_scope.md R12 (b)); INVENTORY.md, Host interface. -/
inductive Input where
  /-- The caller offers the request word `w` (70_reset_and_hazards.md R172). -/
  | request (ch : Nat) (w : ReqWord)
  /-- The caller takes its offer back: `req_valid <- 0`. -/
  | withdraw (ch : Nat)
  /-- The clock runs and the caller changes nothing. -/
  | clock (ch : Nat)
  /-- `hw_rst` is driven to `level` (70_reset_and_hazards.md R170). -/
  | hwReset (ch : Nat) (level : Bool)
  /-- `w` is offered, accepted, and `hw_rst` rises before its response, when `writes` of its SYMBUF writes have
  been issued (70_reset_and_hazards.md R175). -/
  | requestCut (ch : Nat) (w : ReqWord) (writes : Nat)
  /-- The configuration inputs change (10_state.md R29). -/
  | configure (ch : Nat) (straps : Straps)
  /-- The caller supplies a fresh memory block of `cap` slots (70_reset_and_hazards.md R176 step 3). -/
  | provideBuffer (ch : Nat) (cap : Nat)
  /-- The caller stores a word in a slot of the buffer it owns (20_memory.md R40, R43). -/
  | hostStore (ch : Nat) (slot : Nat) (w : SymWord)
deriving DecidableEq, Repr

/-- The machine: its `NCH >= 1` instances (60_exceptions.md R157) in channel order, `before`, then the one whose
ports the next thing happens on, `cur`, then `after`; and what the outside will do, first thing first. -/
structure State where
  before : List Channel
  cur    : Channel
  after  : List Channel
  /-- The MODEL's own field: the caller's next actions (log entry 4). -/
  script : List Input
deriving DecidableEq, Repr

/-- Why the machine stops with a fault. -/
inductive Fault where
  /-- A write to a SYMBUF slot at or above `SYMBUF_CAP`, by ENCODE_NEXT or by the caller: such a slot does not exist
  (20_memory.md R47) and the spec gives the write no meaning (R48: "not admitted"). Safe: the machine stops where
  the hardware would write outside the buffer. -/
  | symbufOverrun
deriving DecidableEq, Repr

/-- Why a step has no meaning. -/
inductive Refusal where
  /-- An operation without a meaning yet, by its mnemonic; raised by `exec` only. Safe. -/
  | notModelled (mnemonic : String)
  /-- A request with the reserved select code `0b00` was accepted; raised by the request port. The spec gives it no
  meaning (30_encoding.md R75 (a)). Safe. -/
  | reservedRequest
  /-- The outside addresses a channel number at or above `NCH`; raised by the step. There is no such instance
  (60_exceptions.md R157). Safe. -/
  | noSuchChannel
  /-- The caller supplies a symbol buffer of no slots; raised by the step. `SYMBUF_CAP >= 1` (00_scope.md R7). Safe. -/
  | emptyBuffer
deriving DecidableEq, Repr

/-- Channel `ch` right after its hardware reset is released (10_state.md R32, 70_reset_and_hazards.md R170). -/
def Channel.reset (ch : Nat) : Channel :=
  { phase := .awaitingReset, straps := Config.straps ch, cap := Config.symbufCap ch, symbuf := [],
    hwRst := false, req := none, rsp := none, strobes := [] }

/-- The machine right after reset: every instance in `AwaitingReset`, no caller acting. -/
def State.reset : State :=
  { before := [], cur := Channel.reset 0,
    after := (List.range Config.moreChannels).map (fun k => Channel.reset (k + 1)), script := [] }

end Sys2Proof.Machine
end

