-- ==== Sys2Proof/Machine/Flags.lean ====
section
/-! DEFINITION. The register view of the Encoder State, `done`, and the codes of a response word. -/

namespace Sys2Proof.Machine

/-- The `armed` bit: a RESET has been performed since hardware reset (10_state.md R22). -/
def Phase.armed : Phase → Bool
  | .awaitingReset => false
  | _ => true

/-- The `bit_index` register (10_state.md R21, R22): the bit symbols emitted so far. Unspecified, so a free value,
in `AwaitingReset`. -/
def Phase.bitIndex : Phase → BitVec 5
  | .awaitingReset => Config.bitIndexAfterHwReset
  | .emittingBits i => BitVec.ofNat 5 i.val
  | .emittingGap => 16#5
  | .done => 16#5

/-- The `gap_emitted` register (10_state.md R21, R24). Unspecified, so a free value, in `AwaitingReset`. -/
def Phase.gapEmitted : Phase → Bool
  | .awaitingReset => Config.gapEmittedAfterHwReset
  | .emittingBits _ => false
  | .emittingGap => false
  | .done => true

/-- `done`, a function of the state (10_state.md R26: `phase = Done`). -/
def Phase.isDone : Phase → Bool
  | .done => true
  | _ => false

/-- The emitted count `e` of an armed state (41_symbol_encoder.md R113). -/
def Phase.emittedCount : Phase → Option Nat
  | .awaitingReset => none
  | .emittingBits i => some i.val
  | .emittingGap => some 16
  | .done => some 17

/-- The armed state with emitted count `e` (41_symbol_encoder.md R113). -/
def Phase.ofCount (e : Nat) : Phase :=
  if h : e < 16 then .emittingBits ⟨e, h⟩ else if e = 16 then .emittingGap else .done

/-- The error code `rsp[31:30]` (30_encoding.md R73). -/
def ErrorKind.code : ErrorKind → BitVec 2
  | .invalidCommand => 0b01#2
  | .encoderExhausted => 0b10#2
  | .bufferTooSmall => 0b11#2

/-- The response word that carries a result (30_encoding.md R72, R73): `err`, five reserved bits, `done`, three
reserved bits, `count`, `frame`; a field a result does not give is 0. -/
def Response.word : Response → RspWord
  | .frame f => f.setWidth 32
  | .nothing => 0#32
  | .encoded symbols done => 0#7 ++ BitVec.ofBool done ++ 0#3 ++ BitVec.ofNat 5 symbols.length ++ 0#16
  | .error e => e.code ++ 0#30

/-- `rsp_valid` (30_encoding.md R68). -/
def Channel.rspValid (c : Channel) : Bool :=
  c.rsp.isSome

/-- `req_ready` between operations (70_reset_and_hazards.md R170, R172): 1 whenever the instance is out of hardware
reset, since no accepted request is unanswered then. -/
def Channel.reqReady (c : Channel) : Bool :=
  !c.hwRst

end Sys2Proof.Machine
end

