-- ==== Sys2Proof/Machine/Operands.lean ====
section
/-! DEFINITION. The operands of the operations and the values made from them: the frame's bits in transmission
order, the symbols of a configuration, the symbol word, the fields of a frame. -/

namespace Sys2Proof.Machine

/-- The frame bit at transmission index `t` (00_scope.md R10): index 0 is bit 15. -/
def frameBit (f : Frame) (t : Nat) : Bool :=
  f.getLsbD (15 - t)

/-- `ONE = (T1H, T1L)` (30_encoding.md R65). -/
def oneSymbol (st : Straps) : Symbol :=
  { high := st.t1h, low := st.t1l }

/-- `ZERO = (T0H, T0L)` (30_encoding.md R65). -/
def zeroSymbol (st : Straps) : Symbol :=
  { high := st.t0h, low := st.t0l }

/-- `GAP = (0, T_GAP)` (30_encoding.md R66). -/
def gapSymbol (st : Straps) : Symbol :=
  { high := 0#16, low := st.tGap }

/-- `sym(b)`: the symbol of one frame bit (30_encoding.md R67). -/
def bitSymbol (st : Straps) (b : Bool) : Symbol :=
  if b then oneSymbol st else zeroSymbol st

/-- What tells the gap symbol from a bit symbol (30_encoding.md R66). -/
def Symbol.isGap (sy : Symbol) : Bool :=
  sy.high == 0#16

/-- The symbol word `high ++ low` (30_encoding.md R64). -/
def Symbol.word (sy : Symbol) : SymWord :=
  sy.high ++ sy.low

/-- How long a symbol lasts on the line, in ticks, as an unbounded number (30_encoding.md R63). -/
def Symbol.ticks (sy : Symbol) : Nat :=
  sy.high.toNat + sy.low.toNat

/-- `SEQ(f)`: the 17 symbols of one transmission (30_encoding.md R67). -/
def symbolSeq (st : Straps) (f : Frame) : List Symbol :=
  (List.range 16).map (fun t => bitSymbol st (frameBit f t)) ++ [gapSymbol st]

/-- The `command` field of a frame, bits 15:5 (30_encoding.md R60, 40_frame_builder.md R97). -/
def frameCommand (f : Frame) : BitVec 11 :=
  f.extractLsb' 5 11

/-- The `telemetry` field of a frame, bit 4 (30_encoding.md R60). -/
def frameTelemetry (f : Frame) : Bool :=
  f.getLsbD 4

/-- The 12-bit payload of a frame, bits 15:4 (30_encoding.md R60). -/
def framePayload (f : Frame) : BitVec 12 :=
  f.extractLsb' 4 12

/-- The `checksum` field of a frame, bits 3:0 (30_encoding.md R60). -/
def frameChecksum (f : Frame) : BitVec 4 :=
  f.extractLsb' 0 4

/-- The XOR of the frame's four nibbles (40_frame_builder.md R93). -/
def frameNibbleXor (f : Frame) : BitVec 4 :=
  f.extractLsb' 12 4 ^^^ f.extractLsb' 8 4 ^^^ f.extractLsb' 4 4 ^^^ f.extractLsb' 0 4

end Sys2Proof.Machine
end

