-- ==== Sys2Proof/Machine/Ops.lean ====
section
/-! DEFINITION. The shared operations: SYMBUF reads and writes, the answer of an operation, raising an error,
hardware reset, and choosing the instance something happens on. -/

namespace Sys2Proof.Machine

/-- The canonical form of SYMBUF: slot numbers strictly rising. -/
abbrev Memory.wf (m : Memory) : Prop :=
  m.Pairwise (fun a b => a.1 < b.1)

/-- What slot `k` holds; `none` where neither the block nor the caller's recorded stores gave it a value
(20_memory.md R43). Only the caller reads SYMBUF. -/
def Memory.read : Memory → Nat → Option SymWord
  | [], _ => none
  | (a, v) :: rest, k => if a = k then some v else Memory.read rest k

/-- Replace the whole of slot `k` (20_memory.md R42, R46), keeping the canonical form. -/
def Memory.write : Memory → Nat → SymWord → Memory
  | [], k, w => [(k, w)]
  | (a, v) :: rest, k, w =>
    if k < a then (k, w) :: (a, v) :: rest
    else if k = a then (k, w) :: rest
    else (a, v) :: Memory.write rest k w

/-- `MemWrite(k, 1, w)` (20_memory.md R42): one strobe of the SYMBUF port (70_reset_and_hazards.md R174). A slot at or
above `SYMBUF_CAP` does not exist (20_memory.md R47, R48). -/
def memWrite (k : Nat) (w : SymWord) (c : Channel) : Except Fault Channel :=
  if k < c.cap then
    .ok { c with symbuf := c.symbuf.write k w, strobes := c.strobes ++ [(BitVec.ofNat 5 k, w)] }
  else .error .symbufOverrun

/-- The writes of one call, in slot order from slot `k` on (20_memory.md R42, R49 (b)). -/
def storeSymbols : Nat → List Symbol → Channel → Except Fault Channel
  | _, [], c => .ok c
  | k, sy :: rest, c =>
    match memWrite k sy.word c with
    | .ok c' => storeSymbols (k + 1) rest c'
    | .error e => .error e

/-- Writes already issued stay written (70_reset_and_hazards.md R175). -/
def Memory.writeAll (m : Memory) : List (BitVec 5 × SymWord) → Memory
  | [] => m
  | (a, w) :: rest => Memory.writeAll (m.write a.toNat w) rest

/-- No response and no SYMBUF write in this step of the instance (70_reset_and_hazards.md R173, R174). -/
def Channel.quiet (c : Channel) : Channel :=
  { c with rsp := none, strobes := [] }

/-- The instance presents the response `r` (70_reset_and_hazards.md R173). -/
def Channel.answer (r : Response) (c : Channel) : Channel :=
  { c with rsp := some r }

/-- `phase <- p` (00_scope.md R11). -/
def Channel.setPhase (p : Phase) (c : Channel) : Channel :=
  { c with phase := p }

/-- Raising an error (60_exceptions.md R146): the Encoder State and SYMBUF are untouched, nothing is saved anywhere,
and the response is the error. There is no return operation (60_exceptions.md R148): the error is over when its
response has been given. -/
def Channel.raise (e : ErrorKind) (c : Channel) : Channel :=
  c.quiet.answer (.error e)

/-- The instance takes its reset state (70_reset_and_hazards.md R170, 10_state.md R32): `AwaitingReset`, no response, no
write. The configuration inputs and SYMBUF are not affected. -/
def Channel.hardwareReset (c : Channel) : Channel :=
  c.quiet.setPhase .awaitingReset

/-- All instances, in channel order. -/
def State.channels (s : State) : List Channel :=
  s.before ++ s.cur :: s.after

/-- The channel number of the current instance. -/
def State.index (s : State) : Nat :=
  s.before.length

/-- Change the current instance and nothing else. -/
def State.mapCur (f : Channel → Channel) (s : State) : State :=
  { s with cur := f s.cur }

/-- `raise e` on the current instance. -/
def State.raise (e : ErrorKind) (s : State) : State :=
  s.mapCur (Channel.raise e)

/-- Make channel `k` the current instance; `none` where there is no channel `k`. -/
def State.selectChannel (k : Nat) (s : State) : Option State :=
  match s.channels.drop k with
  | [] => none
  | c :: rest => some { s with before := s.channels.take k, cur := c, after := rest }

end Sys2Proof.Machine
end

