-- ==== Sys2Proof/Machine/FrameBuilder.lean ====
section
/-! DEFINITION. The Frame Builder: BUILD_FRAME (40_frame_builder.md R90 to R97). -/

namespace Sys2Proof.Machine

/-- `payload[11:0] = command[10:0] ++ telemetry` (30_encoding.md R61). -/
def payloadOf (command : BitVec 11) (telemetry : Bool) : BitVec 12 :=
  command ++ BitVec.ofBool telemetry

/-- The XOR of the payload's three nibbles (30_encoding.md R62). -/
def nibbleXor (payload : BitVec 12) : BitVec 4 :=
  payload.extractLsb' 8 4 ^^^ payload.extractLsb' 4 4 ^^^ payload.extractLsb' 0 4

/-- The checksum, complemented at width 4 iff `bidirectional` (30_encoding.md R62). -/
def checksumOf (payload : BitVec 12) (bidirectional : Bool) : BitVec 4 :=
  if bidirectional then ~~~(nibbleXor payload) else nibbleXor payload

/-- BUILD_FRAME's result (40_frame_builder.md R90): the range check over integers, never saturating and never wrapping
(R91), then `frame = payload ++ checksum`. -/
def buildFrame (command : Int) (telemetry bidirectional : Bool) : Except ErrorKind Frame :=
  if command < 0 ∨ command > 2047 then .error .invalidCommand
  else
    let payload := payloadOf (BitVec.ofInt 11 command) telemetry
    .ok (payload ++ checksumOf payload bidirectional)

/-- BUILD_FRAME (40_frame_builder.md R90, R92): no state is read or written, only the response is given. -/
def execBuildFrame (command : Int) (telemetry bidirectional : Bool) (s : State) :
    Host.Outcome State Fault Refusal :=
  match buildFrame command telemetry bidirectional with
  | .error e => .next (s.raise e)
  | .ok f => .next (s.mapCur (fun c => c.quiet.answer (.frame f)))

end Sys2Proof.Machine
end

