-- ==== Sys2Proof/Machine/SymbolEncoder.lean ====
section
/-! DEFINITION. The Symbol Encoder: RESET and ENCODE_NEXT (41_symbol_encoder.md R110 to R129). -/

namespace Sys2Proof.Machine

/-- RESET (41_symbol_encoder.md R110): `EmittingBits(0)` from every phase, without looking at it. -/
def execReset (s : State) : Host.Outcome State Fault Refusal :=
  .next (s.mapCur (fun c => (c.quiet.setPhase (.emittingBits 0)).answer .nothing))

/-- Steps 1 and 2 of ENCODE_NEXT (41_symbol_encoder.md R111): the state test before the operand test
(60_exceptions.md R145). -/
def encodeError (p : Phase) (maxSymbols : Int) : Option ErrorKind :=
  if p = .awaitingReset ∨ p = .done then some .encoderExhausted
  else if maxSymbols < 1 then some .bufferTooSmall
  else none

/-- Where emitting the bit at index `i` leads: `EmittingBits(i+1)` for `i < 15`, after bit 15 `EmittingGap`
(41_symbol_encoder.md R112). -/
def afterBit (i : Fin 16) : Phase :=
  if h : i.val + 1 < 16 then .emittingBits ⟨i.val + 1, h⟩ else .emittingGap

/-- Step 4 of ENCODE_NEXT (41_symbol_encoder.md R111): while a bit is left and there is room, emit its symbol and
advance. -/
def emitBits (st : Straps) (frame : Frame) : Nat → Phase → List Symbol × Phase
  | 0, p => ([], p)
  | room + 1, .emittingBits i =>
    let more := emitBits st frame room (afterBit i)
    (bitSymbol st (frameBit frame i.val) :: more.1, more.2)
  | _ + 1, p => ([], p)

/-- Step 5 of ENCODE_NEXT (41_symbol_encoder.md R111): the gap symbol, if all bits are out, it is still owed, and
there is room. -/
def emitGap (st : Straps) : Nat → Phase → List Symbol × Phase
  | 0, p => ([], p)
  | _ + 1, .emittingGap => ([gapSymbol st], .done)
  | _ + 1, p => ([], p)

/-- Steps 3 to 5 of ENCODE_NEXT: the symbols of one call with room for `room`, and the phase they lead to. -/
def emitSymbols (st : Straps) (frame : Frame) (room : Nat) (p : Phase) : List Symbol × Phase :=
  let bits := emitBits st frame room p
  let gap := emitGap st (room - bits.1.length) bits.2
  (bits.1 ++ gap.1, gap.2)

/-- ENCODE_NEXT on one instance (41_symbol_encoder.md R111): the symbols go to SYMBUF from slot 0 on (20_memory.md
R42), the phase moves, and the response gives the symbols and `done`, read from the state after (10_state.md R26). -/
def encodeNext (frame : Frame) (maxSymbols : Int) (c : Channel) : Except Fault Channel :=
  match encodeError c.phase maxSymbols with
  | some e => .ok (c.raise e)
  | none =>
    let out := emitSymbols c.straps frame maxSymbols.toNat c.phase
    match storeSymbols 0 out.1 c.quiet with
    | .error flt => .error flt
    | .ok c' => .ok ((c'.setPhase out.2).answer (.encoded out.1 out.2.isDone))

/-- ENCODE_NEXT (41_symbol_encoder.md R111). -/
def execEncodeNext (frame : Frame) (maxSymbols : Int) (s : State) : Host.Outcome State Fault Refusal :=
  match encodeNext frame maxSymbols s.cur with
  | .error flt => .fault flt
  | .ok c => .next { s with cur := c }

end Sys2Proof.Machine
end

