-- ==== Sys2Proof/Machine/Dispatch.lean ====
section
/-! DEFINITION. One arm per operation. -/

namespace Sys2Proof.Machine

def exec (i : Instr) (s : State) : Host.Outcome State Fault Refusal :=
  match i with
  | .buildFrame command telemetry bidirectional => Sys2Proof.Machine.execBuildFrame command telemetry bidirectional s
  | .reset => Sys2Proof.Machine.execReset s
  | .encodeNext frame maxSymbols => Sys2Proof.Machine.execEncodeNext frame maxSymbols s

end Sys2Proof.Machine
end

