-- ==== Sys2Proof/Machine/Ports.lean ====
section
/-! DEFINITION. The ports: what the outside changes on an instance's inputs, and what the instance then does at its
next clock (70_reset_and_hazards.md R170 to R175). -/

namespace Sys2Proof.Machine

/-- The channel an input is addressed to. -/
def Input.channel : Input → Nat
  | .request ch _ => ch
  | .withdraw ch => ch
  | .clock ch => ch
  | .hwReset ch _ => ch
  | .requestCut ch _ _ => ch
  | .configure ch _ => ch
  | .provideBuffer ch _ => ch
  | .hostStore ch _ _ => ch

/-- An accepted request word becomes an operation of the current instance (70_reset_and_hazards.md R172, R173); the
reserved select code has no meaning (30_encoding.md R75). -/
def acceptRequest (w : ReqWord) (s : State) : Host.Outcome State Fault Refusal :=
  match decode w with
  | .error .reservedSelect => .refused .reservedRequest
  | .ok i => exec i s

/-- One clock of the current instance: in hardware reset it takes its reset state and accepts nothing; else it
accepts and performs the offered request, if any; else it does nothing of itself (70_reset_and_hazards.md R170,
R172). -/
def clockChannel (s : State) : Host.Outcome State Fault Refusal :=
  if s.cur.hwRst then .next (s.mapCur Channel.hardwareReset)
  else
    match s.cur.req with
    | none => .next (s.mapCur Channel.quiet)
    | some w => acceptRequest w (s.mapCur (fun c => { c with req := none }))

/-- Hardware reset in the middle of an accepted operation (70_reset_and_hazards.md R175): no response; of its SYMBUF
writes the first `writes` stay written and the rest are not issued; the phase is `AwaitingReset`, and `hw_rst` is high.
`before` is the instance when the request was accepted, `c` the instance the whole operation would have left. -/
def cutOperation (writes : Nat) (before c : Channel) : Channel :=
  { c with
    phase := .awaitingReset, hwRst := true, rsp := none,
    strobes := c.strobes.take writes,
    symbuf := before.symbuf.writeAll (c.strobes.take writes) }

/-- Offer `w` and raise `hw_rst` before the response. An instance already in hardware reset accepts nothing. -/
def clockCut (w : ReqWord) (writes : Nat) (s : State) : Host.Outcome State Fault Refusal :=
  if s.cur.hwRst then .next (s.mapCur (fun c => { c.hardwareReset with req := some w }))
  else
    match acceptRequest w (s.mapCur (fun c => { c with req := none })) with
    | .next t => .next (t.mapCur (cutOperation writes s.cur))
    | .fault f => .fault f
    | .refused r => .refused r

/-- One input on the current instance: its lines change, then the instance is clocked. -/
def serve (input : Input) (s : State) : Host.Outcome State Fault Refusal :=
  match input with
  | .request _ w => clockChannel (s.mapCur (fun c => { c with req := some w }))
  | .withdraw _ => clockChannel (s.mapCur (fun c => { c with req := none }))
  | .clock _ => clockChannel s
  | .hwReset _ level => clockChannel (s.mapCur (fun c => { c with hwRst := level }))
  | .requestCut _ w writes => clockCut w writes s
  | .configure _ st => clockChannel (s.mapCur (fun c => { c with straps := st }))
  | .provideBuffer _ cap =>
    if cap = 0 then .refused .emptyBuffer
    else clockChannel (s.mapCur (fun c => { c with cap := cap, symbuf := [] }))
  | .hostStore _ slot w =>
    if slot < s.cur.cap then clockChannel (s.mapCur (fun c => { c with symbuf := c.symbuf.write slot w }))
    else .fault .symbufOverrun

/-- The next thing the outside does, on the channel it is addressed to; with nothing left to do the current instance
is clocked as it stands. -/
def nextInput (s : State) : Host.Outcome State Fault Refusal :=
  match s.script with
  | [] => clockChannel s
  | input :: rest =>
    match State.selectChannel input.channel { s with script := rest } with
    | none => .refused .noSuchChannel
    | some t => serve input t

/-- The caller offers `w` to the current instance, out of hardware reset, before anything else it would do. -/
def State.offer (w : ReqWord) (s : State) : State :=
  { s with cur := { s.cur with hwRst := false }, script := .request s.index w :: s.script }

end Sys2Proof.Machine
end

