-- ==== Sys2Proof/Machine/Step.lean ====
section
/-! DEFINITION. One step of the machine, and the placing of a request word where the step takes it. -/

namespace Sys2Proof.Machine

/-- One step: the outside does its next thing to one instance and that instance is clocked (00_scope.md R12). -/
def step (s : State) : Host.Outcome State Fault Refusal :=
  nextInput s

/-- `s` with the request word `w` as the next thing its caller offers. -/
def State.withFetchWord (s : State) (nbits w : Nat) : State :=
  s.offer (BitVec.ofNat 32 (w % 2 ^ nbits))

end Sys2Proof.Machine
end

