-- ==== Sys2Proof/Machine/Caller.lean ====
section
/-! DEFINITION. The caller's side: sequences of operations on one instance, the composite sequences SUBMIT and DRAIN
(30_encoding.md R78), the textual form of an operation (R77), and the end of a transmission (41_symbol_encoder.md
R128). None of it is an operation of the block. -/

namespace Sys2Proof.Machine

/-- A sequence of operations as its caller sees it: the machine after it, and the responses in order. -/
abbrev Sequence := Host.Outcome (State × List Response) Fault Refusal

/-- The sequence that issues nothing more. -/
def stop (s : State) : Sequence :=
  .next (s, [])

/-- The caller issues one operation and, when it has its response, goes on as it chooses from that response
(70_reset_and_hazards.md R177). Every operation that answers gives a response. -/
def perform (i : Instr) (andThen : Response → State → Sequence) (s : State) : Sequence :=
  match exec i s with
  | .fault f => .fault f
  | .refused r => .refused r
  | .next t =>
    match t.cur.rsp with
    | none => stop t
    | some r =>
      match andThen r t with
      | .fault f => .fault f
      | .refused q => .refused q
      | .next (u, rs) => .next (u, r :: rs)

/-- Operations issued one at a time, whatever the responses. -/
def issue : List Instr → State → Sequence
  | [], s => stop s
  | i :: rest, s => perform i (fun _ t => issue rest t) s

/-- ENCODE_NEXT calls of one frame with these sizes (a partition of a drain, 41_symbol_encoder.md R115). -/
def encodeCalls (frame : Frame) (sizes : List Int) : List Instr :=
  sizes.map (Instr.encodeNext frame)

/-- The symbols an ENCODE_NEXT response hands over; none for any other response. -/
def Response.symbols : Response → List Symbol
  | .encoded symbols _ => symbols
  | _ => []

/-- The `done` bit of a response, 0 for any but a successful ENCODE_NEXT (30_encoding.md R72). -/
def Response.doneBit : Response → Bool
  | .encoded _ done => done
  | _ => false

/-- The calls a drain by size `n >= 1` takes, `ceil(17 / min(n, 17))` (30_encoding.md R78). -/
def drainCalls (n : Nat) : Nat :=
  (17 + min n 17 - 1) / min n 17

/-- Repeat `ENC <frame>, <n>` until a call returns `done = 1`; stop at the first error (30_encoding.md R78). At most
`calls` calls. -/
def drainWithin (frame : Frame) (n : Int) : Nat → State → Sequence
  | 0, s => stop s
  | calls + 1, s =>
    perform (.encodeNext frame n) (fun r t =>
      match r with
      | .encoded _ false => drainWithin frame n calls t
      | _ => stop t) s

/-- `DRAIN <frame>, <n>` (30_encoding.md R78), for every `n`. The bound of 17 calls cuts no drain short: a call that
neither ends the drain nor completes the transmission emits at least one of its 17 symbols (41_symbol_encoder.md
R121). -/
def drain (frame : Frame) (n : Int) (s : State) : Sequence :=
  drainWithin frame n 17 s

/-- `SUBMIT <command>, <telemetry>`, draining by `n` (30_encoding.md R78): the build takes the channel's `BIDIR`, and
after `InvalidCommand` nothing further is issued. -/
def submit (command : Int) (telemetry : Bool) (n : Int) (s : State) : Sequence :=
  perform (.buildFrame command telemetry s.cur.straps.bidir) (fun r t =>
    match r with
    | .frame f => perform .reset (fun _ u => drain f n u) t
    | _ => stop t) s

/-- What the end of a transmission is read from: an operation with its response, or a hardware reset of the
instance. -/
inductive TransmissionEvent where
  | operation (i : Instr) (r : Response)
  | hardwareReset
deriving DecidableEq, Repr

/-- How a transmission stands (41_symbol_encoder.md R128). -/
inductive TransmissionEnd where
  | inProgress
  | complete
  | failed
  | cancelled
deriving DecidableEq, Repr

/-- The fate of a transmission, from what happens to its instance after its RESET: the first ENCODE_NEXT response with
`done` completes it, the first with an error fails it, a RESET or a hardware reset before either cancels it;
BUILD_FRAME has no part in it (41_symbol_encoder.md R128). -/
def transmissionEnd : List TransmissionEvent → TransmissionEnd
  | [] => .inProgress
  | .hardwareReset :: _ => .cancelled
  | .operation (.buildFrame _ _ _) _ :: rest => transmissionEnd rest
  | .operation .reset _ :: _ => .cancelled
  | .operation (.encodeNext _ _) (.encoded _ true) :: _ => .complete
  | .operation (.encodeNext _ _) (.error _) :: _ => .failed
  | .operation (.encodeNext _ _) _ :: rest => transmissionEnd rest

/-- The symbols an event hands over to the caller. -/
def TransmissionEvent.symbols : TransmissionEvent → List Symbol
  | .operation _ r => r.symbols
  | .hardwareReset => []

/-- The events of a sequence of operations. -/
def eventsOf (is : List Instr) (rs : List Response) : List TransmissionEvent :=
  List.zipWith TransmissionEvent.operation is rs

/-- The request on an instance's port when it is clocked with `input` (70_reset_and_hazards.md R172). -/
def Input.offered (input : Input) (c : Channel) : Option ReqWord :=
  match input with
  | .request _ w => some w
  | .requestCut _ w _ => some w
  | .withdraw _ => none
  | .clock _ => c.req
  | .hwReset _ _ => c.req
  | .configure _ _ => c.req
  | .provideBuffer _ _ => c.req
  | .hostStore _ _ _ => c.req

/-- What one step of an instance, from `c` to `d` by `input`, is for its transmission: a hardware reset, whether it
cuts an operation or not (70_reset_and_hazards.md R170, R175), or the operation accepted, with its response. -/
def eventOf (input : Input) (c d : Channel) : Option TransmissionEvent :=
  if d.hwRst then some .hardwareReset
  else
    match input.offered c, d.rsp with
    | some w, some r =>
      match decode w with
      | .ok i => some (.operation i r)
      | .error _ => none
    | _, _ => none

/-- What one step of the machine, from `s` to `t` by `input`, is for the transmission of channel `k`. -/
def eventAt (k : Nat) (input : Input) (s t : State) : Option TransmissionEvent :=
  if input.channel = k then
    match s.channels[k]?, t.channels[k]? with
    | some c, some d => eventOf input c d
    | _, _ => none
  else none

/-- The machine run by these actions of the caller, one step each, and what happens to the transmission of channel
`k`. -/
def runInputs (k : Nat) : List Input → State → Host.Outcome (State × List TransmissionEvent) Fault Refusal
  | [], s => .next (s, [])
  | input :: rest, s =>
    match step { s with script := [input] } with
    | .fault f => .fault f
    | .refused r => .refused r
    | .next t =>
      match runInputs k rest t with
      | .fault f => .fault f
      | .refused r => .refused r
      | .next (u, es) => .next (u, (eventAt k input s t).toList ++ es)

/-- The textual form of a flag operand (30_encoding.md R77). -/
def flagText (b : Bool) : String :=
  if b then "1" else "0"

/-- One operation a line, numbers in decimal (30_encoding.md R77). -/
def operationText : Instr → String
  | .buildFrame c t b => "BUILD " ++ toString c ++ ", " ++ flagText t ++ ", " ++ flagText b
  | .reset => "RESET"
  | .encodeNext f m => "ENC " ++ toString f.toNat ++ ", " ++ toString m

/-- The line of an operation addressed to channel `ch`, where several channels appear (30_encoding.md R77). -/
def channelLine (ch : Nat) (i : Instr) : String :=
  "ch" ++ toString ch ++ ": " ++ operationText i

end Sys2Proof.Machine
end

