-- ==== Sys2Proof/Safety.lean ====
section
/-! DEFINITION. What a claim means by a good state and a dutiful caller. -/

namespace Sys2Proof.Machine

/-- The writes `(sym_addr, sym_wdata)` of a call that emits `ss`, from slot 0 (20_memory.md R42,
70_reset_and_hazards.md R174). -/
def strobesOf (ss : List Symbol) : List (BitVec 5 × SymWord) :=
  ss.zipIdx.map (fun p => (BitVec.ofNat 5 p.2, p.1.word))

/-- The response an instance presents agrees with its Encoder State and its SYMBUF port: a successful ENCODE_NEXT
emitted 1 to 17 symbols (41_symbol_encoder.md R121, R122), wrote them from slot 0 (20_memory.md R42), and its `done`
is that of the phase (10_state.md R26); every other response came with no write (20_memory.md R42), a RESET's with
`EmittingBits(0)`, an error with a phase that raises it (60_exceptions.md R142, R143). -/
abbrev Channel.ResponseAgrees (c : Channel) : Prop :=
  match c.rsp with
  | none => True
  | some (.frame _) => c.strobes = []
  | some .nothing => c.strobes = [] ∧ c.phase = .emittingBits 0
  | some (.encoded ss done) =>
    1 ≤ ss.length ∧ ss.length ≤ 17 ∧ c.strobes = strobesOf ss ∧ done = c.phase.isDone ∧
      c.phase ≠ .awaitingReset
  | some (.error .invalidCommand) => c.strobes = []
  | some (.error .encoderExhausted) => c.strobes = [] ∧ (c.phase = .awaitingReset ∨ c.phase = .done)
  | some (.error .bufferTooSmall) => c.strobes = [] ∧ c.phase ≠ .awaitingReset ∧ c.phase ≠ .done

/-- The invariant of one instance: SYMBUF in canonical form and inside its capacity (20_memory.md R47), at least one
slot (00_scope.md R7), in hardware reset the reset state (70_reset_and_hazards.md R170), no request left waiting out
of hardware reset (R172), the response in agreement. -/
abbrev Channel.Inv (c : Channel) : Prop :=
  c.symbuf.wf ∧ (∀ p ∈ c.symbuf, p.1 < c.cap) ∧ 1 ≤ c.cap ∧
  (c.hwRst = true → c.phase = .awaitingReset ∧ c.rsp = none) ∧
  (c.req ≠ none → c.hwRst = true) ∧
  c.ResponseAgrees

/-- The invariant of the machine: that of every instance. -/
abbrev State.Inv (s : State) : Prop :=
  ∀ c ∈ s.channels, c.Inv

/-- A transmission is in progress: ENCODE_NEXT has symbols to emit (41_symbol_encoder.md R128). -/
def Phase.inProgress : Phase → Bool
  | .emittingBits _ => true
  | .emittingGap => true
  | _ => false

/-- The symbols a call with room `m` emits from this phase, `min(m, 17 - e)` (41_symbol_encoder.md R113); none where
the phase does not emit. -/
def emittedBy (p : Phase) (m : Int) : Nat :=
  match p.emittedCount with
  | none => 0
  | some e => min m.toNat (17 - e)

/-- What a dutiful caller remembers of one channel: whether a transmission is open, and the frame it carries once
the first ENCODE_NEXT has presented one (70_reset_and_hazards.md R179). -/
structure Track where
  isOpen : Bool
  frame  : Option Frame
deriving DecidableEq, Repr

/-- The duties the caller has in choosing its next operation (60_exceptions.md R155): a command in range (R91), a RESET
at any time (R185), an ENCODE_NEXT only in an open transmission (70_reset_and_hazards.md R178, R183, R184), with
`1 <= max_symbols <= SYMBUF_CAP` (R180) and an unchanged frame (R179). -/
def Duty (cap : Nat) (t : Track) : Instr → Bool
  | .buildFrame command _ _ => decide (0 ≤ command ∧ command ≤ 2047)
  | .reset => true
  | .encodeNext frame maxSymbols =>
    t.isOpen && decide (1 ≤ maxSymbols ∧ maxSymbols ≤ (cap : Int)) &&
      decide (t.frame = none ∨ t.frame = some frame)

/-- What the caller remembers after an operation and its response: RESET opens a transmission, `done` or an error of
ENCODE_NEXT closes it (70_reset_and_hazards.md R183, R184), and BUILD_FRAME changes nothing. -/
def Track.after (t : Track) (i : Instr) (r : Response) : Track :=
  match i, r with
  | .buildFrame _ _ _, _ => t
  | .reset, _ => { isOpen := true, frame := none }
  | .encodeNext frame _, .encoded _ false => { isOpen := true, frame := some frame }
  | .encodeNext _ _, _ => { isOpen := false, frame := none }

/-- The caller's memory agrees with the instance. -/
def Track.agrees (t : Track) (c : Channel) : Prop :=
  t.isOpen = c.phase.inProgress

/-- A caller that keeps its duties at every operation of a run, remembering as it goes. -/
def dutifulRun (cap : Nat) : Track → List (Instr × Response) → Bool
  | _, [] => true
  | t, (i, r) :: rest => Duty cap t i && dutifulRun cap (t.after i r) rest

end Sys2Proof.Machine
end

