-- ==== Sys2Proof/Certificates/Slice0/Obligations.lean ====
section
/-! DEFINITION. The statements about DSHOT_FBSE, from the numbered rules of spec/. -/

open Sys2Proof Sys2Proof.Machine

-- Encodings

/-- Every operation that fits a request word is what its request word decodes to (30_encoding.md R69 to R71, R76). -/
def Obligations.EncodeThenDecodeIsIdentity : Prop :=
  ∀ i : Instr, i.wf = true → decode (encode i) = .ok i

/-- Every request word that decodes keeps its select code and operand fields through decode and encode; what is
lost is the reserved bits of its format only (30_encoding.md R75 (b)). -/
def Obligations.DecodeThenEncodeKeepsDefinedBits : Prop :=
  ∀ (w : ReqWord) (i : Instr), decode w = .ok i → i.wf = true ∧ encode i = w &&& i.definedBits

/-- Two request words that agree on the bits an operation's format defines decode alike: reserved bits are ignored
(30_encoding.md R75 (b)). -/
def Obligations.ReservedBitsAreIgnored : Prop :=
  ∀ (w v : ReqWord) (i : Instr), decode w = .ok i → w &&& i.definedBits = v &&& i.definedBits → decode v = .ok i

/-- The decoder is total, every word is one row of the operation table or has the reserved select code, and never
both (30_encoding.md R74, R75 (a)). -/
def Obligations.DecodeFollowsTheOperationMap : Prop :=
  ∀ w : ReqWord,
    (∀ i, decode w = .ok i → w &&& tableMask = i.tableMatch) ∧
    (decode w = .error .reservedSelect ↔ w &&& tableMask = 0#32) ∧
    (w &&& tableMask = 0x40000000#32 → ∃ c t b, decode w = .ok (.buildFrame c t b)) ∧
    (w &&& tableMask = 0x80000000#32 → decode w = .ok .reset) ∧
    (w &&& tableMask = 0xC0000000#32 → ∃ f m, decode w = .ok (.encodeNext f m))

/-- Request words written out in the spec decode to the operations it says (30_encoding.md R69 to R71, R75;
95_test_vectors.md). -/
def Obligations.SpecRequestWordsDecode : Prop :=
  decode 0b01000000000000000000001111101000#32 = .ok (.buildFrame 1000 false false) ∧
  decode 0b01000000000000110000010000010110#32 = .ok (.buildFrame 1046 true true) ∧
  decode 0b01111111111111000000001111101000#32 = .ok (.buildFrame 1000 false false) ∧
  decode 0b10000000000000000000000000000000#32 = .ok .reset ∧
  decode 0b10111111111111111111111111111111#32 = .ok .reset ∧
  decode 0b11000000000100010111110100001010#32 = .ok (.encodeNext 0x7D0A#16 17) ∧
  decode 0b11000000110010000111110100001010#32 = .ok (.encodeNext 0x7D0A#16 200) ∧
  decode 0b00000000000000000000000000000000#32 = .error .reservedSelect

/-- The fields of the response word of every result (30_encoding.md R72, R73): error code, `done`, `count`, frame,
each 0 where the result does not give it, and the reserved bits 0. -/
def Obligations.ResponseWordFields : Prop :=
  ∀ r : Response, r.symbols.length ≤ 17 →
    r.word.extractLsb' 30 2 = (match r with | .error e => e.code | _ => 0#2) ∧
    r.word.extractLsb' 25 5 = 0#5 ∧
    r.word.getLsbD 24 = r.doneBit ∧
    r.word.extractLsb' 21 3 = 0#3 ∧
    (r.word.extractLsb' 16 5).toNat = r.symbols.length ∧
    r.word.extractLsb' 0 16 = (match r with | .frame f => f | _ => 0#16)

-- The Frame Builder

/-- BUILD_FRAME of a command in range answers, in every state, a frame whose payload is command and telemetry
(30_encoding.md R61) and whose checksum is that of R62; nothing else of the machine changes. -/
def Obligations.BuildFrameAnswersTheFrame : Prop :=
  ∀ (s : State) (command : Int) (telemetry bidirectional : Bool), 0 ≤ command → command ≤ 2047 →
    ∃ f : Frame,
      exec (.buildFrame command telemetry bidirectional) s =
        .next { s with cur := { s.cur with rsp := some (.frame f), strobes := [] } } ∧
      ((frameCommand f).toNat : Int) = command ∧
      frameTelemetry f = telemetry ∧
      ((framePayload f).toNat : Int) = 2 * command + (if telemetry then 1 else 0) ∧
      frameChecksum f =
        (let x := (framePayload f).extractLsb' 8 4 ^^^ (framePayload f).extractLsb' 4 4 ^^^
          (framePayload f).extractLsb' 0 4
         if bidirectional then 15#4 - x else x)

/-- Exactly a command outside 0 to 2047 raises `InvalidCommand`, no other operation does, no frame is produced, and
only the response and the idle SYMBUF port show it; at the port the cause is `req[15:11] != 0`; the code is `0b01`
(60_exceptions.md R141). -/
def Obligations.InvalidCommandExactlyOutOfRange : Prop :=
  (∀ (s : State) (command : Int) (telemetry bidirectional : Bool), command < 0 ∨ 2047 < command →
    exec (.buildFrame command telemetry bidirectional) s =
      .next { s with cur := { s.cur with rsp := some (.error .invalidCommand), strobes := [] } }) ∧
  (∀ (i : Instr) (s t : State), exec i s = .next t → t.cur.rsp = some (.error .invalidCommand) →
    ∃ command telemetry bidirectional, i = .buildFrame command telemetry bidirectional ∧
      (command < 0 ∨ 2047 < command)) ∧
  (∀ (w : ReqWord) (command : Int) (telemetry bidirectional : Bool),
    decode w = .ok (.buildFrame command telemetry bidirectional) →
    (command < 0 ∨ 2047 < command ↔ w.extractLsb' 11 5 ≠ 0#5)) ∧
  ErrorKind.invalidCommand.code = 0b01#2

/-- The XOR of a built frame's four nibbles is 0, or 15 in bidirectional mode, and the frames of the two polarities
differ in exactly the four checksum bits (40_frame_builder.md R93, derived there). -/
def Obligations.BuiltFrameNibblesXor : Prop :=
  ∀ (command : Int) (telemetry : Bool), 0 ≤ command → command ≤ 2047 →
    ∃ f g : Frame, buildFrame command telemetry false = .ok f ∧ buildFrame command telemetry true = .ok g ∧
      frameNibbleXor f = 0#4 ∧ frameNibbleXor g = 15#4 ∧ f ^^^ g = 0x000F#16

/-- For a fixed polarity a frame comes from one command and telemetry flag only (40_frame_builder.md R97, derived
there). -/
def Obligations.BuildFrameIsInjective : Prop :=
  ∀ (c d : Int) (t u b : Bool) (f : Frame),
    buildFrame c t b = .ok f → buildFrame d u b = .ok f → c = d ∧ t = u

/-- BUILD_FRAME's answer depends on its three operands and nothing else: any two machines, whatever their channel,
phase, straps or history, answer alike, and neither is changed otherwise (40_frame_builder.md R92). -/
def Obligations.BuildFrameIsPure : Prop :=
  ∀ (command : Int) (telemetry bidirectional : Bool), ∃ r : Response, ∀ s : State,
    exec (.buildFrame command telemetry bidirectional) s =
      .next { s with cur := { s.cur with rsp := some r, strobes := [] } }

-- RESET

/-- RESET runs in every state of the machine and every phase: `bit_index` 0, `gap_emitted` false, armed; nothing else
of the instance changes but its response, SYMBUF and configuration included (41_symbol_encoder.md R110). -/
def Obligations.ResetStartsTheFrame : Prop :=
  decode 0x80000000#32 = .ok .reset ∧ Response.word .nothing = 0#32 ∧
  ∀ s : State, ∃ t : State, exec .reset s = .next t ∧
    t = { s with cur := { s.cur with phase := .emittingBits 0, rsp := some .nothing, strobes := [] } } ∧
    t.cur.phase.bitIndex = 0#5 ∧ t.cur.phase.gapEmitted = false ∧ t.cur.phase.armed = true

-- ENCODE_NEXT

/-- ENCODE_NEXT in one transition (41_symbol_encoder.md R113, derived there from R111's loop): from an armed state
with `e < 17` symbols emitted, with room `m >= 1` and the buffer large enough for the symbols it emits, the call emits
`n = min(m, 17 - e)` symbols of `SEQ(frame)` from index `e`, stores them from slot 0, moves to the state with `e + n`
emitted, and reports `done` exactly when `e + n = 17`. -/
def Obligations.EncodeNextIsOneTransition : Prop :=
  ∀ (s : State) (frame : Frame) (m : Int) (e n : Nat) (ss : List Symbol),
    s.cur.phase.emittedCount = some e → e < 17 → 1 ≤ m → n = min m.toNat (17 - e) → n ≤ s.cur.cap →
    ss = ((symbolSeq s.cur.straps frame).drop e).take n →
    exec (.encodeNext frame m) s =
      .next { s with cur := { s.cur with
        phase := .ofCount (e + n),
        symbuf := s.cur.symbuf.writeAll (strobesOf ss),
        strobes := strobesOf ss,
        rsp := some (.encoded ss (decide (e + n = 17))) } }

/-- What a successful ENCODE_NEXT stores and what it leaves (20_memory.md R42, decided there): slots 0 to `n - 1`
hold the words of its symbols, every other slot holds what it held, and a call that raises an error, a BUILD_FRAME
and a RESET store nothing. -/
def Obligations.SymbufChangesOnlyInTheSlotsWritten : Prop :=
  ∀ (i : Instr) (s t : State), exec i s = .next t →
    (∀ (frame : Frame) (m : Int), i = .encodeNext frame m → encodeError s.cur.phase m = none →
      ∃ e, s.cur.phase.emittedCount = some e ∧
        ∀ k : Nat,
          (k < emittedBy s.cur.phase m →
            t.cur.symbuf.read k = ((symbolSeq s.cur.straps frame)[e + k]?).map Symbol.word) ∧
          (emittedBy s.cur.phase m ≤ k → t.cur.symbuf.read k = s.cur.symbuf.read k)) ∧
    ((∀ (frame : Frame) (m : Int), i = .encodeNext frame m → encodeError s.cur.phase m ≠ none) →
      t.cur.symbuf = s.cur.symbuf ∧ t.cur.strobes = [])

/-- The frame of every operation that answers: the other instances, the caller's script, and the instance's straps,
buffer capacity, `hw_rst` and request lines are unchanged; BUILD_FRAME keeps the phase and SYMBUF, RESET keeps SYMBUF,
and an operation that raises keeps both (10_state.md R28, R29; 60_exceptions.md R146). -/
def Obligations.OperationsChangeOnlyTheirEffect : Prop :=
  ∀ (i : Instr) (s t : State), exec i s = .next t →
    t.before = s.before ∧ t.after = s.after ∧ t.script = s.script ∧
    t.cur.straps = s.cur.straps ∧ t.cur.cap = s.cur.cap ∧ t.cur.hwRst = s.cur.hwRst ∧ t.cur.req = s.cur.req ∧
    (∀ c tel b, i = .buildFrame c tel b → t.cur.phase = s.cur.phase ∧ t.cur.symbuf = s.cur.symbuf) ∧
    (i = .reset → t.cur.symbuf = s.cur.symbuf) ∧
    (∀ e, t.cur.rsp = some (.error e) → t.cur.phase = s.cur.phase ∧ t.cur.symbuf = s.cur.symbuf ∧
      t.cur.strobes = [])

/-- ENCODE_NEXT stops the machine exactly when it would write a slot the buffer does not have, after both error tests
(20_memory.md R48; log entry 8), and is never refused. -/
def Obligations.EncodeNextStopsExactlyOnOverrun : Prop :=
  ∀ (s : State) (frame : Frame) (m : Int),
    (exec (.encodeNext frame m) s = .fault .symbufOverrun ↔
      encodeError s.cur.phase m = none ∧ s.cur.cap < emittedBy s.cur.phase m) ∧
    ((∃ t, exec (.encodeNext frame m) s = .next t) ↔
      ¬(encodeError s.cur.phase m = none ∧ s.cur.cap < emittedBy s.cur.phase m)) ∧
    (∀ r, exec (.encodeNext frame m) s ≠ .refused r)

/-- Once the transmission is `Done`, every ENCODE_NEXT fails with `EncoderExhausted`, however often it is repeated, and
the state stays `Done` through any operations but RESET, until RESET or hardware reset (41_symbol_encoder.md R117). -/
def Obligations.DoneStaysExhaustedUntilReset : Prop :=
  (∀ (is : List Instr) (s : State), s.cur.phase = .done → .reset ∉ is →
    ∃ (t : State) (rs : List Response), issue is s = .next (t, rs) ∧ t.cur.phase = .done ∧
      rs.length = is.length ∧
      ∀ p ∈ is.zip rs, ∀ frame m, p.1 = .encodeNext frame m → p.2 = .error .encoderExhausted) ∧
  (∀ s : State, ∃ t : State, exec .reset s = .next t ∧ t.cur.phase = .emittingBits 0) ∧
  (∀ c : Channel, c.hardwareReset.phase = .awaitingReset)

/-- In `AwaitingReset` and in `Done` ENCODE_NEXT raises `EncoderExhausted` whatever its operands, a `max_symbols` below
1 among them, and changes nothing but the response; no other operation and no other phase raises it (60_exceptions.md
R142, R145, decided there: the spec's D6 and D7). -/
def Obligations.EncoderExhaustedExactlyWithoutReset : Prop :=
  (∀ (s : State) (frame : Frame) (m : Int), s.cur.phase = .awaitingReset ∨ s.cur.phase = .done →
    exec (.encodeNext frame m) s =
      .next { s with cur := { s.cur with rsp := some (.error .encoderExhausted), strobes := [] } }) ∧
  (∀ (i : Instr) (s t : State), exec i s = .next t → t.cur.rsp = some (.error .encoderExhausted) →
    (∃ frame m, i = .encodeNext frame m) ∧ (s.cur.phase = .awaitingReset ∨ s.cur.phase = .done)) ∧
  ErrorKind.encoderExhausted.code = 0b10#2

/-- `BufferTooSmall` is raised by ENCODE_NEXT only, exactly when `max_symbols < 1` and the phase is `EmittingBits(i)` or
`EmittingGap`, changes nothing but the response, and is the field value 0 at the port; every `max_symbols >= 1` is
accepted; the code is `0b11` (60_exceptions.md R143). -/
def Obligations.BufferTooSmallExactlyWithoutRoom : Prop :=
  (∀ (s : State) (frame : Frame) (m : Int), s.cur.phase.inProgress = true → m < 1 →
    exec (.encodeNext frame m) s =
      .next { s with cur := { s.cur with rsp := some (.error .bufferTooSmall), strobes := [] } }) ∧
  (∀ (i : Instr) (s t : State), exec i s = .next t → t.cur.rsp = some (.error .bufferTooSmall) →
    s.cur.phase.inProgress = true ∧ ∃ frame m, i = .encodeNext frame m ∧ m < 1) ∧
  (∀ (w : ReqWord) (frame : Frame) (m : Int), decode w = .ok (.encodeNext frame m) →
    (m < 1 ↔ w.extractLsb' 16 8 = 0#8)) ∧
  ErrorKind.bufferTooSmall.code = 0b11#2

/-- A successful ENCODE_NEXT emits at least one symbol, at most `max_symbols` and at most 17, and no slot above 16 is
written (41_symbol_encoder.md R121, R122, derived there). -/
def Obligations.SuccessfulCallMakesProgress : Prop :=
  ∀ (s t : State) (frame : Frame) (m : Int) (ss : List Symbol) (done : Bool),
    exec (.encodeNext frame m) s = .next t → t.cur.rsp = some (.encoded ss done) →
    1 ≤ ss.length ∧ (ss.length : Int) ≤ m ∧ ss.length ≤ 17 ∧ t.cur.strobes = strobesOf ss ∧
      ∀ p ∈ t.cur.strobes, p.1.toNat ≤ 16

/-- Any `max_symbols` of at least what is left acts as what is left (41_symbol_encoder.md R122, derived there). -/
def Obligations.LargeRoomActsAsWhatIsLeft : Prop :=
  ∀ (s : State) (frame : Frame) (m : Int) (e : Nat), s.cur.phase.emittedCount = some e → e < 17 →
    ((17 - e : Nat) : Int) ≤ m → exec (.encodeNext frame m) s = exec (.encodeNext frame ((17 - e : Nat) : Int)) s

/-- `done` is `bit_index = 16` and `gap_emitted` of the state after the operation, that is `phase = Done`, and only a
successful ENCODE_NEXT delivers it (10_state.md R26). -/
def Obligations.DoneIsAFunctionOfTheStateAfter : Prop :=
  ∀ (i : Instr) (s t : State) (r : Response), exec i s = .next t → t.cur.rsp = some r →
    (∀ ss done, r = .encoded ss done →
      (∃ frame m, i = .encodeNext frame m) ∧
      done = (decide (t.cur.phase.bitIndex = 16#5) && t.cur.phase.gapEmitted) ∧
      (done = true ↔ t.cur.phase = .done)) ∧
    ((∀ ss done, r ≠ .encoded ss done) → r.doneBit = false)

/-- `bit_index` advances by one for each bit symbol emitted and by nothing else, stops at 16, and only RESET returns it
to 0 (10_state.md R23): a successful ENCODE_NEXT adds its count of bit symbols, BUILD_FRAME and every error leave it,
RESET clears it. The straps are legal, so that a bit symbol is one with a high part (30_encoding.md R66). -/
def Obligations.BitIndexCountsBitSymbols : Prop :=
  ∀ (i : Instr) (s t : State), s.cur.straps.Legal → exec i s = .next t →
    t.cur.phase.bitIndex.toNat =
      (match i, t.cur.rsp with
       | .reset, _ => 0
       | .encodeNext _ _, some (.encoded ss _) =>
         s.cur.phase.bitIndex.toNat + (ss.filter (fun sy => !sy.isGap)).length
       | _, _ => s.cur.phase.bitIndex.toNat) ∧
    (s.cur.phase.armed = true → t.cur.phase.bitIndex.toNat ≤ 16)

/-- `gap_emitted` is set to false by RESET, to true by the ENCODE_NEXT that emits the gap symbol, and by nothing else
changed: no ENCODE_NEXT clears it, and BUILD_FRAME and every error leave it (10_state.md R24). The straps are legal, so
that only the gap symbol has no high part (30_encoding.md R66). -/
def Obligations.GapEmittedIsSetByTheGapSymbol : Prop :=
  ∀ (i : Instr) (s t : State), s.cur.straps.Legal → exec i s = .next t →
    t.cur.phase.gapEmitted =
      (match i, t.cur.rsp with
       | .reset, _ => false
       | .encodeNext _ _, some (.encoded ss _) => s.cur.phase.gapEmitted || ss.any Symbol.isGap
       | _, _ => s.cur.phase.gapEmitted)

/-- What a call emits depends only on the frame bits at the transmission indices it covers, the configuration and the
phase: two instances in the same phase with the same straps, whatever their channel, history and buffer, answer alike
for frames that agree there; a call that emits the gap alone covers no frame bit, so any two frames do
(41_symbol_encoder.md R120, R124, derived there). -/
def Obligations.SymbolsDependOnlyOnTheBitsCovered : Prop :=
  ∀ (s s' t t' : State) (f g : Frame) (m : Int) (e : Nat),
    s.cur.phase.emittedCount = some e → s'.cur.phase = s.cur.phase → s'.cur.straps = s.cur.straps →
    (∀ k, e ≤ k → k < e + emittedBy s.cur.phase m → k < 16 → frameBit f k = frameBit g k) →
    exec (.encodeNext f m) s = .next t → exec (.encodeNext g m) s' = .next t' →
    t'.cur.rsp = t.cur.rsp ∧ t'.cur.phase = t.cur.phase ∧ t'.cur.strobes = t.cur.strobes

-- Transmissions

/-- Draining a frame by any sizes of at least 1 that reach 17 with the last call, each within the buffer: every call
answers, the outputs together are exactly `SEQ(frame)`, 16 bit symbols and one gap, 17 in all, and `done` is true on the
last call, which emits the 17th, and on no other (41_symbol_encoder.md R115). -/
def Obligations.AnyPartitionDrainsTheFrame : Prop :=
  ∀ (s : State) (frame : Frame) (sizes : List Int) (last : Int),
    s.cur.phase = .emittingBits 0 → (∀ m ∈ sizes ++ [last], 1 ≤ m ∧ m ≤ (s.cur.cap : Int)) →
    sizes.sum < 17 → 17 ≤ sizes.sum + last →
    ∃ (t : State) (rs : List Response),
      issue (encodeCalls frame (sizes ++ [last])) s = .next (t, rs) ∧
      rs.flatMap Response.symbols = symbolSeq s.cur.straps frame ∧
      (rs.flatMap Response.symbols).length = 17 ∧
      rs.map Response.doneBit = List.replicate sizes.length false ++ [true] ∧
      t.cur.phase = .done

/-- Encoding the same frame by any two partitions, on any two instances with the same straps, gives the same symbols in
the same order, `SEQ(frame)` (41_symbol_encoder.md R116). -/
def Obligations.SplitPointsDoNotAffectTheOutput : Prop :=
  ∀ (s s' t t' : State) (frame : Frame) (sizes sizes' : List Int) (last last' : Int) (rs rs' : List Response),
    s.cur.phase = .emittingBits 0 → s'.cur.phase = .emittingBits 0 → s'.cur.straps = s.cur.straps →
    (∀ m ∈ sizes ++ [last], 1 ≤ m) → (∀ m ∈ sizes' ++ [last'], 1 ≤ m) →
    17 ≤ sizes.sum + last → 17 ≤ sizes'.sum + last' → sizes.sum < 17 → sizes'.sum < 17 →
    issue (encodeCalls frame (sizes ++ [last])) s = .next (t, rs) →
    issue (encodeCalls frame (sizes' ++ [last'])) s' = .next (t', rs') →
    rs.flatMap Response.symbols = rs'.flatMap Response.symbols ∧
      rs.flatMap Response.symbols = symbolSeq s.cur.straps frame

/-- How many symbols each call of a drain emits: every call but the last its whole size, the last what is left
(41_symbol_encoder.md R114, derived there). -/
def Obligations.EveryCallButTheLastEmitsItsSize : Prop :=
  ∀ (s t : State) (frame : Frame) (sizes : List Int) (last : Int) (rs : List Response),
    s.cur.phase = .emittingBits 0 → (∀ m ∈ sizes ++ [last], 1 ≤ m) → sizes.sum < 17 → 17 ≤ sizes.sum + last →
    issue (encodeCalls frame (sizes ++ [last])) s = .next (t, rs) →
    rs.map (fun r => (r.symbols.length : Int)) = sizes ++ [17 - sizes.sum]

/-- After a RESET a full drain gives `SEQ(frame)`, whatever operations came before it and however far an earlier
transmission had come: RESET erases every trace of it (41_symbol_encoder.md R118). -/
def Obligations.ResetErasesTheEarlierTransmission : Prop :=
  ∀ (s u : State) (earlier : List Instr) (before : List Response) (frame : Frame) (sizes : List Int) (last : Int),
    issue earlier s = .next (u, before) →
    (∀ m ∈ sizes ++ [last], 1 ≤ m ∧ m ≤ (s.cur.cap : Int)) → sizes.sum < 17 → 17 ≤ sizes.sum + last →
    ∃ (t : State) (rs : List Response),
      issue (.reset :: encodeCalls frame (sizes ++ [last])) u = .next (t, .nothing :: rs) ∧
      rs.flatMap Response.symbols = symbolSeq s.cur.straps frame ∧ t.cur.phase = .done

/-- DRAIN repeats `ENC frame, n` until a call returns `done = 1` or raises, for every `n` and from every state
(30_encoding.md R78, decided there): its calls are those ENC operations, no call but the last is `done` or an error,
and the last is one of the two; where the first call raises, `BufferTooSmall` for `n < 1` among the causes, nothing more
is issued; and where `n` is within the buffer the drain answers. -/
def Obligations.DrainStopsAtDoneOrTheFirstError : Prop :=
  ∀ (s : State) (frame : Frame) (n : Int),
    (∀ (t : State) (rs : List Response), drain frame n s = .next (t, rs) →
      issue (encodeCalls frame (List.replicate rs.length n)) s = .next (t, rs) ∧
      ∃ (earlier : List Response) (last : Response), rs = earlier ++ [last] ∧
        (∀ r ∈ earlier, ∃ ss, r = .encoded ss false) ∧
        ((∃ ss, last = .encoded ss true) ∨ ∃ e, last = .error e)) ∧
    (∀ e, encodeError s.cur.phase n = some e →
      drain frame n s =
        .next ({ s with cur := { s.cur with rsp := some (.error e), strobes := [] } }, [.error e])) ∧
    (n ≤ (s.cur.cap : Int) → ∃ (t : State) (rs : List Response), drain frame n s = .next (t, rs))

/-- SUBMIT of a command in range, draining by an `n >= 1` within the buffer, builds the frame with the channel's
`BIDIR`, re-arms the encoder and drains the whole frame in `ceil(17 / min(n, 17))` calls, from any state (30_encoding.md
R78, decided there); of a command out of range it issues nothing after the error, whatever `n`. -/
def Obligations.SubmitSendsOneWholeFrame : Prop :=
  ∀ (s : State) (command : Int) (telemetry : Bool) (n : Int),
    (0 ≤ command → command ≤ 2047 → 1 ≤ n → n ≤ (s.cur.cap : Int) →
      ∃ (f : Frame) (t : State) (rs : List Response),
        buildFrame command telemetry s.cur.straps.bidir = .ok f ∧
        submit command telemetry n s = .next (t, .frame f :: .nothing :: rs) ∧
        rs.length = drainCalls n.toNat ∧ rs.flatMap Response.symbols = symbolSeq s.cur.straps f ∧
        t.cur.phase = .done) ∧
    (command < 0 ∨ 2047 < command →
      submit command telemetry n s =
        .next ({ s with cur := { s.cur with rsp := some (.error .invalidCommand), strobes := [] } },
          [.error .invalidCommand]))

/-- A transmission is in progress until it ends: as long as it has neither completed, failed nor been cancelled, the
Encoder State has symbols left to emit, counting those handed over; and a whole drain completes it (41_symbol_encoder.md
R128, decided there; the reading of an operation list as a transmission is log entry 23). -/
def Obligations.TransmissionInProgressUntilItEnds : Prop :=
  (∀ (is : List Instr) (s t : State) (rs : List Response), s.cur.phase = .emittingBits 0 →
    issue is s = .next (t, rs) → transmissionEnd (eventsOf is rs) = .inProgress →
    t.cur.phase.inProgress = true ∧ t.cur.phase.emittedCount = some (rs.flatMap Response.symbols).length) ∧
  (∀ (s t : State) (frame : Frame) (sizes : List Int) (last : Int) (rs : List Response),
    s.cur.phase = .emittingBits 0 → (∀ m ∈ sizes ++ [last], 1 ≤ m) → sizes.sum < 17 → 17 ≤ sizes.sum + last →
    issue (encodeCalls frame (sizes ++ [last])) s = .next (t, rs) →
    transmissionEnd (eventsOf (encodeCalls frame (sizes ++ [last])) rs) = .complete)

/-- On the running machine, whatever its caller does on whatever channels: as long as what has happened on a channel since
`EmittingBits(0)` leaves its transmission in progress, its Encoder State has symbols left, counting those handed over;
and hardware reset then cancels it, between operations and in the middle of one alike, with the state replaced by
`AwaitingReset` (41_symbol_encoder.md R128, decided there; log entry 23). -/
def Obligations.HardwareResetCancelsTheTransmission : Prop :=
  ∀ (inputs : List Input) (k : Nat) (s t : State) (c : Channel) (es : List TransmissionEvent),
    s.channels[k]? = some c → c.phase = .emittingBits 0 → runInputs k inputs s = .next (t, es) →
    transmissionEnd es = .inProgress →
    ∃ d : Channel, t.channels[k]? = some d ∧ d.phase.inProgress = true ∧
      d.phase.emittedCount = some (es.flatMap TransmissionEvent.symbols).length ∧
      (∃ u : State, step { t with script := [.hwReset k true] } = .next u) ∧
      ∀ (input : Input) (u : State), (input = .hwReset k true ∨ ∃ w writes, input = .requestCut k w writes) →
        step { t with script := [input] } = .next u →
        runInputs k (inputs ++ [input]) s = .next (u, es ++ [.hardwareReset]) ∧
        transmissionEnd (es ++ [.hardwareReset]) = .cancelled ∧
        ∃ v : Channel, u.channels[k]? = some v ∧ v.phase = .awaitingReset

/-- The duration of a whole transmission is `16 * T_BIT + T_GAP` ticks whatever the frame, if the straps are legal, and
only its last symbol is the gap (30_encoding.md R66, R67, derived there). -/
def Obligations.SequenceLastsSixteenBitsAndTheGap : Prop :=
  ∀ (st : Straps) (f : Frame), st.Legal →
    (symbolSeq st f).length = 17 ∧
    ((symbolSeq st f).map Symbol.ticks).sum = 16 * st.tBit + st.tGap.toNat ∧
    ∀ (k : Nat) (sy : Symbol), (symbolSeq st f)[k]? = some sy → (sy.isGap = true ↔ k = 16)

/-- The sequencer copies the configured pair into every bit symbol: a 1 bit's high to low is 3:1 and a 0 bit's 3:5
within one tick of the exact share of the bit period, where the straps keep the default ratios (41_symbol_encoder.md
R119, 00_scope.md R8 (b)). -/
def Obligations.BitSymbolsKeepTheRatios : Prop :=
  ∀ (st : Straps) (f : Frame) (t : Nat) (sy : Symbol), t < 16 → st.Legal → st.DefaultRatios →
    (symbolSeq st f)[t]? = some sy →
    sy = (if frameBit f t then { high := st.t1h, low := st.t1l } else { high := st.t0h, low := st.t0l }) ∧
    (sy.high.toNat + sy.low.toNat = st.tBit) ∧
    (if frameBit f t then (4 * (sy.high.toNat : Int) - 3 * (st.tBit : Int)).natAbs ≤ 4
     else (8 * (sy.high.toNat : Int) - 3 * (st.tBit : Int)).natAbs ≤ 8)

/-- The recommended derivation of the tick counts gives legal straps with the default ratios whenever the bit period is
3 to 65535 ticks and the gap is not zero (00_scope.md R8 (e), the spec's own choice D10). -/
def Obligations.DerivedStrapsAreLegal : Prop :=
  ∀ (fTickHz baud : Nat) (tGap : Tick) (bidir : Bool),
    3 ≤ roundDiv fTickHz baud → roundDiv fTickHz baud ≤ 65535 → 1 ≤ tGap.toNat →
    (Straps.derive fTickHz baud tGap bidir).Legal ∧ (Straps.derive fTickHz baud tGap bidir).DefaultRatios ∧
    (Straps.derive fTickHz baud tGap bidir).tBit = roundDiv fTickHz baud

-- Reset, ports and steps

/-- The machine right after reset: at least one instance; every instance in `AwaitingReset`, not armed, ready, presenting
no response and no write, with legal straps and a buffer of at least one slot (10_state.md R32, decided there; log entries
6, 7 and 21). -/
def Obligations.ResetStateIsAwaitingReset : Prop :=
  1 ≤ State.reset.channels.length ∧
  ∀ c ∈ State.reset.channels, c.phase = .awaitingReset ∧ c.phase.armed = false ∧ c.rspValid = false ∧
    c.reqReady = true ∧ c.strobes = [] ∧ c.straps.Legal ∧ 1 ≤ c.cap

/-- The invariant holds of the machine right after reset. That the reset state meets it rests on the model's choices
that no request is offered and `hw_rst` is low there (log entry 21) and that every channel has its buffer already (log
entry 6). -/
def Obligations.ResetStateHasTheInvariant : Prop :=
  State.reset.Inv

/-- Every step keeps the invariant of every instance: SYMBUF in canonical form and inside its capacity, a buffer of at
least one slot, the reset state while `hw_rst` is high, no request left waiting otherwise, and a response in agreement
with the Encoder State and the SYMBUF port. -/
def Obligations.EveryStepKeepsTheInvariant : Prop :=
  ∀ s t : State, s.Inv → step s = .next t → t.Inv

/-- When the request offered to the current instance decodes to an operation, and the instance is out of hardware reset,
a step runs that operation on the instance, its request taken; whichever channel it is addressed to, that channel is made
the current one and no instance is changed by that (70_reset_and_hazards.md R172, R173). -/
def Obligations.StepRunsTheDecodedOperation : Prop :=
  (∀ (s : State) (w : ReqWord) (rest : List Input) (i : Instr),
    s.script = .request s.index w :: rest → s.cur.hwRst = false → decode w = .ok i →
    step s = exec i { s with script := rest, cur := { s.cur with req := none } }) ∧
  (∀ (s : State) (k : Nat) (w : ReqWord) (rest : List Input) (i : Instr) (c : Channel),
    s.script = .request k w :: rest → s.channels[k]? = some c → c.hwRst = false → decode w = .ok i →
    ∃ u : State, u.channels = s.channels ∧ u.index = k ∧ u.script = rest ∧ u.cur = c ∧
      step s = exec i { u with cur := { u.cur with req := none } })

/-- A request placed by `withFetchWord` is run by the very next step (log entry 4), and one with the reserved select code
is refused (30_encoding.md R75 (a)). -/
def Obligations.FetchedWordRunsNext : Prop :=
  ∀ (s : State) (w : Nat), w < 2 ^ 32 →
    (∀ i, decodeTableWord 32 w = some i →
      step (s.withFetchWord 32 w) = exec i { s with cur := { s.cur with hwRst := false, req := none } }) ∧
    (decodeTableWord 32 w = none → step (s.withFetchWord 32 w) = .refused .reservedRequest)

/-- A request with the reserved select code has no meaning: the step that accepts it is refused, under that name
(30_encoding.md R75 (a), decided there; 93_implementation_defined.md U5). -/
def Obligations.ReservedRequestIsRefused : Prop :=
  ∀ (s : State) (k : Nat) (w : ReqWord) (rest : List Input) (c : Channel),
    s.script = .request k w :: rest → s.channels[k]? = some c → c.hwRst = false → opField w = 0#2 →
    step s = .refused .reservedRequest

/-- The block never acts unasked: with nothing offered, a step leaves everything of the instance but the outputs that
last one clock, whether its caller does nothing more, lets the clock run, takes an offer back, or drives `hw_rst` low;
on any channel, and no other instance is touched (70_reset_and_hazards.md R170, R172, R173, decided there). -/
def Obligations.IdleInstanceChangesNothing : Prop :=
  (∀ s : State, s.script = [] → s.cur.hwRst = false → s.cur.req = none →
    step s = .next { s with cur := { s.cur with rsp := none, strobes := [] } }) ∧
  (∀ (s : State) (k : Nat) (rest : List Input) (c : Channel) (input : Input),
    s.script = input :: rest → s.channels[k]? = some c →
    (input = .clock k ∧ c.hwRst = false ∧ c.req = none) ∨ (input = .withdraw k ∧ c.hwRst = false) ∨
      (input = .hwReset k false ∧ c.req = none) →
    ∃ t : State, step s = .next t ∧ t.index = k ∧ t.script = rest ∧
      t.channels = s.channels.set k { c with hwRst := false, req := none, rsp := none, strobes := [] })

/-- While `hw_rst` stays high an instance keeps its reset state and accepts nothing: whatever its caller does on its
request port, only what is offered there changes; on any channel, and no other instance is touched
(70_reset_and_hazards.md R170, R172, decided there; log entry 18). -/
def Obligations.HardwareResetHoldsTheInstance : Prop :=
  ∀ (s : State) (k : Nat) (rest : List Input) (c : Channel) (input : Input) (offer : Option ReqWord),
    s.script = input :: rest → s.channels[k]? = some c → c.hwRst = true →
    (input = .clock k ∧ offer = c.req) ∨ (input = .hwReset k true ∧ offer = c.req) ∨
      (input = .withdraw k ∧ offer = none) ∨ (∃ w, input = .request k w ∧ offer = some w) ∨
      (∃ w writes, input = .requestCut k w writes ∧ offer = some w) →
    ∃ t : State, step s = .next t ∧ t.index = k ∧ t.script = rest ∧
      t.channels = s.channels.set k { c with phase := .awaitingReset, req := offer, rsp := none, strobes := [] }

/-- Driving `hw_rst` high takes any channel to its reset state: `AwaitingReset`, no response, no write, not ready; its
SYMBUF and straps are not affected, nor is any other channel (70_reset_and_hazards.md R170, 10_state.md R32, decided
there). -/
def Obligations.HardwareResetTakesTheResetState : Prop :=
  ∀ (s : State) (k : Nat) (rest : List Input) (c : Channel),
    s.script = .hwReset k true :: rest → s.channels[k]? = some c →
    ∃ t : State, step s = .next t ∧ t.script = rest ∧ t.channels.length = s.channels.length ∧
      t.channels[k]? = some { c with hwRst := true, phase := .awaitingReset, rsp := none, strobes := [] } ∧
      ∀ j, j ≠ k → t.channels[j]? = s.channels[j]?

/-- A request offered while `hw_rst` is high is not accepted but waits on the port, and is accepted by the step that
releases `hw_rst` (70_reset_and_hazards.md R172; log entry 18). -/
def Obligations.RequestWaitsForTheReleaseOfReset : Prop :=
  ∀ (s : State) (w : ReqWord) (rest : List Input), s.cur.hwRst = true →
    s.script = .request s.index w :: .hwReset s.index false :: rest →
    ∃ t : State,
      step s = .next t ∧
      t = { s with
        script := .hwReset s.index false :: rest
        cur := { s.cur with phase := .awaitingReset, req := some w, rsp := none, strobes := [] } } ∧
      step t = acceptRequest w { s with
        script := rest
        cur := { s.cur with phase := .awaitingReset, hwRst := false, req := none, rsp := none, strobes := [] } }

/-- Hardware reset in the middle of an ENCODE_NEXT that would emit `ss`: no response, the phase is `AwaitingReset`, the
first `writes` of its SYMBUF writes stay written and every other slot holds what it held (70_reset_and_hazards.md R175,
decided there; log entry 16). -/
def Obligations.HardwareResetCutsAnOperation : Prop :=
  ∀ (s t : State) (w : ReqWord) (writes : Nat) (rest : List Input) (i : Instr) (ss : List Symbol) (done : Bool),
    s.script = .requestCut s.index w writes :: rest → s.cur.hwRst = false → decode w = .ok i →
    exec i { s with script := rest, cur := { s.cur with req := none } } = .next t →
    t.cur.rsp = some (.encoded ss done) →
    ∃ u : State, step s = .next u ∧ u.before = s.before ∧ u.after = s.after ∧ u.script = rest ∧
      u.cur.phase = .awaitingReset ∧ u.cur.rsp = none ∧ u.cur.hwRst = true ∧ u.cur.req = none ∧
      u.cur.straps = s.cur.straps ∧ u.cur.cap = s.cur.cap ∧
      u.cur.strobes = (strobesOf ss).take writes ∧
      ∀ k : Nat, u.cur.symbuf.read k =
        if k < min writes ss.length then (ss[k]?).map Symbol.word else s.cur.symbuf.read k

/-- A hardware reset in the middle of an operation that writes no slot leaves SYMBUF alone (70_reset_and_hazards.md R175,
decided there; log entry 16). -/
def Obligations.HardwareResetCutsAWritelessOperation : Prop :=
  ∀ (s t : State) (w : ReqWord) (writes : Nat) (rest : List Input) (i : Instr),
    s.script = .requestCut s.index w writes :: rest → s.cur.hwRst = false → decode w = .ok i →
    exec i { s with script := rest, cur := { s.cur with req := none } } = .next t →
    (∀ ss done, t.cur.rsp ≠ some (.encoded ss done)) →
    step s = .next { s with script := rest, cur := { s.cur with
      phase := .awaitingReset, hwRst := true, req := none, rsp := none, strobes := [] } }

/-- The caller's other actions change only what it drives, in hardware reset and out of it, on any channel: a step that
sets the straps, supplies a buffer or stores into a slot leaves the other lines, and the instance goes quiet as it does
at any clock, keeping its phase, or taking `AwaitingReset` while `hw_rst` is high; a store outside the buffer and a
buffer of no slots stop the machine by name (10_state.md R29, 20_memory.md R40, R47, 70_reset_and_hazards.md R170, R176;
log entries 15 and 19). Out of hardware reset no request waits, as in every state the invariant allows. -/
def Obligations.CallerActionsChangeWhatTheyDrive : Prop :=
  ∀ (s : State) (k : Nat) (rest : List Input) (c settled : Channel), s.channels[k]? = some c →
    (c.hwRst = false → c.req = none) →
    settled = { c with
      phase := if c.hwRst then .awaitingReset else c.phase
      rsp := none, strobes := [] } →
    (∀ st, s.script = .configure k st :: rest →
      ∃ t : State, step s = .next t ∧ t.index = k ∧ t.script = rest ∧
        t.channels = s.channels.set k { settled with straps := st }) ∧
    (∀ cap, s.script = .provideBuffer k cap :: rest →
      (cap = 0 → step s = .refused .emptyBuffer) ∧
      (cap ≠ 0 → ∃ t : State, step s = .next t ∧ t.index = k ∧ t.script = rest ∧
        t.channels = s.channels.set k { settled with cap := cap, symbuf := [] })) ∧
    (∀ slot w, s.script = .hostStore k slot w :: rest →
      (c.cap ≤ slot → step s = .fault .symbufOverrun) ∧
      (slot < c.cap → ∃ (t : State) (m : Memory), step s = .next t ∧ t.index = k ∧ t.script = rest ∧
        t.channels = s.channels.set k { settled with symbuf := m } ∧
        ∀ j, m.read j = if j = slot then some w else c.symbuf.read j))

-- Channels

/-- A step touches no channel but the one its input is addressed to (60_exceptions.md R157). -/
def Obligations.StepTouchesOneChannel : Prop :=
  ∀ (s t : State) (input : Input) (rest : List Input), s.script = input :: rest → step s = .next t →
    t.script = rest ∧ t.channels.length = s.channels.length ∧
    ∀ j, j ≠ input.channel → t.channels[j]? = s.channels[j]?

/-- What a step does to its channel depends on that channel and the input only: two machines that agree on the channel,
with the same input next, end the step the same way and agree on the channel after it (60_exceptions.md R157). -/
def Obligations.ChannelResultDependsOnThatChannelAlone : Prop :=
  ∀ (s s' : State) (input : Input) (rest rest' : List Input) (c : Channel),
    s.script = input :: rest → s'.script = input :: rest' →
    s.channels[input.channel]? = some c → s'.channels[input.channel]? = some c →
    (∃ t t' : State, step s = .next t ∧ step s' = .next t' ∧
      t'.channels[input.channel]? = t.channels[input.channel]?) ∨
    (∃ f, step s = .fault f ∧ step s' = .fault f) ∨
    (∃ r, step s = .refused r ∧ step s' = .refused r)

/-- Any interleaving gives each channel the result it would have alone: two inputs on different channels may be taken in
either order, and every channel ends the same (60_exceptions.md R157). -/
def Obligations.InterleavingOfChannelsIsIrrelevant : Prop :=
  ∀ (s t u : State) (a b : Input) (rest : List Input), a.channel ≠ b.channel → s.script = a :: b :: rest →
    step s = .next t → step t = .next u →
    ∃ t' u' : State, step { s with script := b :: a :: rest } = .next t' ∧ step t' = .next u' ∧
      u'.channels = u.channels ∧ u'.script = u.script

-- The dutiful caller

/-- A caller that keeps its duties never meets an error or an overrun, and its memory of the transmission stays true:
an operation within the duties (60_exceptions.md R155, 70_reset_and_hazards.md R178 to R184) answers, without an
error. -/
def Obligations.DutifulOperationSucceeds : Prop :=
  ∀ (s : State) (track : Track) (i : Instr), track.agrees s.cur → Duty s.cur.cap track i = true →
    ∃ (t : State) (r : Response), exec i s = .next t ∧ t.cur.rsp = some r ∧ (∀ e, r ≠ .error e) ∧
      (track.after i r).agrees t.cur ∧ t.cur.cap = s.cur.cap

/-- Along a whole run of a dutiful caller no response is an error (60_exceptions.md R155, 70_reset_and_hazards.md R178 to
R184). -/
def Obligations.DutifulRunMeetsNoError : Prop :=
  ∀ (is : List Instr) (s t : State) (rs : List Response) (track : Track), track.agrees s.cur →
    issue is s = .next (t, rs) → dutifulRun s.cur.cap track (is.zip rs) = true →
    ∀ r ∈ rs, ∀ e, r ≠ .error e
end

