-- ==== Sys2Proof/Laws/Memory.lean ====
section
/-! SUPPORT. The laws of SYMBUF: a read after a write, and the canonical form every write keeps. -/

namespace Sys2Proof.Machine

@[simp] theorem Memory.read_nil (k : Nat) : Memory.read [] k = none := rfl

@[simp] theorem Memory.wf_nil : Memory.wf [] := List.Pairwise.nil

/-- One lemma for every read after a write: the written slot holds the word, the others what they held. -/
theorem Memory.read_write (m : Memory) (k j : Nat) (w : SymWord) :
    (m.write k w).read j = if j = k then some w else m.read j := by
  induction m with
  | nil =>
    simp only [Memory.write, Memory.read, eq_comm (a := k)]
  | cons p rest ih =>
    obtain ⟨a, v⟩ := p
    simp only [Memory.write]
    split
    · by_cases hj : j = k
      · simp [Memory.read, hj]
      · simp [Memory.read, hj, Ne.symm hj]
    · split
      · rename_i _ hka
        subst hka
        by_cases hj : j = k
        · simp [Memory.read, hj]
        · simp [Memory.read, hj, Ne.symm hj]
      · rename_i _ hka
        simp only [Memory.read, ih]
        by_cases hj : j = k
        · subst hj
          simp [Ne.symm hka]
        · simp [hj]

@[simp] theorem Memory.read_write_same (m : Memory) (k : Nat) (w : SymWord) :
    (m.write k w).read k = some w := by
  simp [Memory.read_write]

theorem Memory.read_write_other (m : Memory) {k j : Nat} (w : SymWord) (h : j ≠ k) :
    (m.write k w).read j = m.read j := by
  simp [Memory.read_write, h]

/-- Where the listed slots of a written memory come from. -/
theorem Memory.mem_write {m : Memory} {k : Nat} {w : SymWord} {p : Nat × SymWord}
    (h : p ∈ m.write k w) : p = (k, w) ∨ p ∈ m := by
  induction m with
  | nil => simpa [Memory.write] using h
  | cons q rest ih =>
    obtain ⟨a, v⟩ := q
    simp only [Memory.write] at h
    split at h
    · simpa using h
    · split at h
      · rcases List.mem_cons.mp h with rfl | h'
        · exact .inl rfl
        · exact .inr (List.mem_cons_of_mem _ h')
      · rcases List.mem_cons.mp h with rfl | h'
        · exact .inr List.mem_cons_self
        · exact (ih h').imp id (List.mem_cons_of_mem _)

theorem Memory.write_wf {m : Memory} (k : Nat) (w : SymWord) (h : m.wf) : (m.write k w).wf := by
  induction m with
  | nil => simp [Memory.write]
  | cons q rest ih =>
    obtain ⟨a, v⟩ := q
    obtain ⟨ha, hrest⟩ := List.pairwise_cons.mp h
    simp only [Memory.write]
    split
    · rename_i hka
      refine List.pairwise_cons.mpr ⟨fun p hp => ?_, h⟩
      rcases List.mem_cons.mp hp with rfl | hp'
      · exact hka
      · exact Nat.lt_trans hka (ha p hp')
    · split
      · rename_i hka
        subst hka
        exact List.pairwise_cons.mpr ⟨ha, hrest⟩
      · rename_i hlt hne
        refine List.pairwise_cons.mpr ⟨fun p hp => ?_, ih hrest⟩
        rcases Memory.mem_write hp with rfl | hp'
        · change a < k
          omega
        · exact ha p hp'

/-- Every listed slot is below `cap`. -/
theorem Memory.write_below {m : Memory} {k cap : Nat} (w : SymWord) (hk : k < cap)
    (h : ∀ p ∈ m, p.1 < cap) : ∀ p ∈ m.write k w, p.1 < cap := by
  intro p hp
  rcases Memory.mem_write hp with rfl | hp'
  · exact hk
  · exact h p hp'

@[simp] theorem Memory.writeAll_nil (m : Memory) : m.writeAll [] = m := rfl

@[simp] theorem Memory.writeAll_cons (m : Memory) (a : BitVec 5) (w : SymWord)
    (rest : List (BitVec 5 × SymWord)) :
    m.writeAll ((a, w) :: rest) = (m.write a.toNat w).writeAll rest := rfl

theorem Memory.writeAll_append (m : Memory) (xs ys : List (BitVec 5 × SymWord)) :
    m.writeAll (xs ++ ys) = (m.writeAll xs).writeAll ys := by
  induction xs generalizing m with
  | nil => rfl
  | cons p rest ih =>
    obtain ⟨a, w⟩ := p
    simp [ih]

theorem Memory.writeAll_wf {m : Memory} (xs : List (BitVec 5 × SymWord)) (h : m.wf) :
    (m.writeAll xs).wf := by
  induction xs generalizing m with
  | nil => exact h
  | cons p rest ih =>
    obtain ⟨a, w⟩ := p
    exact ih (Memory.write_wf _ _ h)

theorem Memory.writeAll_below {m : Memory} {cap : Nat} (xs : List (BitVec 5 × SymWord))
    (hx : ∀ p ∈ xs, p.1.toNat < cap) (h : ∀ p ∈ m, p.1 < cap) :
    ∀ p ∈ m.writeAll xs, p.1 < cap := by
  induction xs generalizing m with
  | nil => exact h
  | cons p rest ih =>
    obtain ⟨a, w⟩ := p
    exact ih (fun q hq => hx q (List.mem_cons_of_mem _ hq))
      (Memory.write_below w (hx (a, w) List.mem_cons_self) h)

end Sys2Proof.Machine
end

