-- ==== Sys2Proof/Laws/State.lean ====
section
/-! SUPPORT. One lemma per field per update of an instance and of the machine, and the channel list. -/

namespace Sys2Proof.Machine

section ChannelUpdates

variable (c : Channel) (p : Phase) (r : Response) (e : ErrorKind)

@[simp] theorem Channel.quiet_phase : c.quiet.phase = c.phase := rfl
@[simp] theorem Channel.quiet_straps : c.quiet.straps = c.straps := rfl
@[simp] theorem Channel.quiet_cap : c.quiet.cap = c.cap := rfl
@[simp] theorem Channel.quiet_symbuf : c.quiet.symbuf = c.symbuf := rfl
@[simp] theorem Channel.quiet_hwRst : c.quiet.hwRst = c.hwRst := rfl
@[simp] theorem Channel.quiet_req : c.quiet.req = c.req := rfl
@[simp] theorem Channel.quiet_rsp : c.quiet.rsp = none := rfl
@[simp] theorem Channel.quiet_strobes : c.quiet.strobes = [] := rfl

@[simp] theorem Channel.answer_phase : (c.answer r).phase = c.phase := rfl
@[simp] theorem Channel.answer_straps : (c.answer r).straps = c.straps := rfl
@[simp] theorem Channel.answer_cap : (c.answer r).cap = c.cap := rfl
@[simp] theorem Channel.answer_symbuf : (c.answer r).symbuf = c.symbuf := rfl
@[simp] theorem Channel.answer_hwRst : (c.answer r).hwRst = c.hwRst := rfl
@[simp] theorem Channel.answer_req : (c.answer r).req = c.req := rfl
@[simp] theorem Channel.answer_rsp : (c.answer r).rsp = some r := rfl
@[simp] theorem Channel.answer_strobes : (c.answer r).strobes = c.strobes := rfl

@[simp] theorem Channel.setPhase_phase : (c.setPhase p).phase = p := rfl
@[simp] theorem Channel.setPhase_straps : (c.setPhase p).straps = c.straps := rfl
@[simp] theorem Channel.setPhase_cap : (c.setPhase p).cap = c.cap := rfl
@[simp] theorem Channel.setPhase_symbuf : (c.setPhase p).symbuf = c.symbuf := rfl
@[simp] theorem Channel.setPhase_hwRst : (c.setPhase p).hwRst = c.hwRst := rfl
@[simp] theorem Channel.setPhase_req : (c.setPhase p).req = c.req := rfl
@[simp] theorem Channel.setPhase_rsp : (c.setPhase p).rsp = c.rsp := rfl
@[simp] theorem Channel.setPhase_strobes : (c.setPhase p).strobes = c.strobes := rfl

/-- The whole effect of raising an error: the response, and that no write is issued. -/
theorem Channel.raise_eq : c.raise e = { c with rsp := some (.error e), strobes := [] } := rfl

/-- The whole effect of hardware reset on an instance. -/
theorem Channel.hardwareReset_eq :
    c.hardwareReset = { c with phase := .awaitingReset, rsp := none, strobes := [] } := rfl

end ChannelUpdates

section StateUpdates

variable (s : State) (f : Channel → Channel)

@[simp] theorem State.mapCur_before : (s.mapCur f).before = s.before := rfl
@[simp] theorem State.mapCur_cur : (s.mapCur f).cur = f s.cur := rfl
@[simp] theorem State.mapCur_after : (s.mapCur f).after = s.after := rfl
@[simp] theorem State.mapCur_script : (s.mapCur f).script = s.script := rfl
@[simp] theorem State.mapCur_index : (s.mapCur f).index = s.index := rfl

theorem State.mem_channels {c : Channel} :
    c ∈ s.channels ↔ c ∈ s.before ∨ c = s.cur ∨ c ∈ s.after := by
  simp [State.channels]

@[simp] theorem State.channels_length : s.channels.length = s.before.length + (s.after.length + 1) := by
  simp [State.channels]

/-- What reading the channel list at any number gives: the current instance at its own number. -/
theorem State.channels_get (j : Nat) :
    s.channels[j]? = if j < s.before.length then s.before[j]?
      else if j = s.before.length then some s.cur else s.after[j - s.before.length - 1]? := by
  unfold State.channels
  rw [List.getElem?_append]
  split
  · rfl
  · split
    · simp [*]
    · obtain ⟨d, hd⟩ : ∃ d, j - s.before.length = d + 1 := ⟨j - s.before.length - 1, by omega⟩
      simp [hd]

end StateUpdates

/-- Choosing a channel changes no instance and nothing of the script: only which one is current. -/
theorem State.selectChannel_eq {k : Nat} {s t : State} (h : s.selectChannel k = some t) :
    t.channels = s.channels ∧ t.index = k ∧ t.script = s.script ∧ s.channels[k]? = some t.cur := by
  unfold State.selectChannel at h
  split at h
  · cases h
  · rename_i c rest hd
    cases h
    have hk : k < s.channels.length := by
      by_contra hk
      rw [List.drop_eq_nil_of_le (by omega)] at hd
      cases hd
    refine ⟨?_, ?_, rfl, ?_⟩
    · change s.channels.take k ++ c :: rest = s.channels
      rw [← hd, List.take_append_drop]
    · change (s.channels.take k).length = k
      rw [List.length_take]
      omega
    · have := List.getElem?_drop (xs := s.channels) (i := k) (j := 0)
      rw [hd] at this
      simpa using this.symm

/-- There is a channel `k` to choose exactly when the number is below `NCH`. -/
theorem State.selectChannel_isSome {k : Nat} {s : State} :
    (∃ t, s.selectChannel k = some t) ↔ k < s.channels.length := by
  unfold State.selectChannel
  constructor
  · rintro ⟨t, h⟩
    by_contra hk
    rw [List.drop_eq_nil_of_le (by omega)] at h
    cases h
  · intro hk
    rw [List.drop_eq_getElem_cons hk]
    exact ⟨_, rfl⟩

/-- Choosing the current channel changes nothing. -/
theorem State.selectChannel_index (s : State) : s.selectChannel s.index = some s := by
  have hd : s.channels.drop s.index = s.cur :: s.after := by
    simp [State.channels, State.index]
  have ht : s.channels.take s.index = s.before := by
    simp [State.channels, State.index]
  unfold State.selectChannel
  rw [hd]
  simp only [ht]

end Sys2Proof.Machine
end

