-- ==== Sys2Proof/Laws/Encoder.lean ====
section
/-! SUPPORT. What storing a call's symbols and emitting them do, each said once. -/

namespace Sys2Proof.Machine

/-- The strobes of a list of symbols stored from slot `k` on. -/
def strobesFrom (k : Nat) : List Symbol → List (BitVec 5 × SymWord)
  | [] => []
  | sy :: rest => (BitVec.ofNat 5 k, sy.word) :: strobesFrom (k + 1) rest

/-- The buffer after a list of symbols is stored from slot `k` on. -/
def storeFrom (m : Memory) (k : Nat) : List Symbol → Memory
  | [] => m
  | sy :: rest => storeFrom (m.write k sy.word) (k + 1) rest

/-- Storing a call's symbols, said once: it succeeds exactly when the last slot exists, and then only SYMBUF and the
port's strobes change. -/
theorem storeSymbols_eq (ss : List Symbol) (k : Nat) (c : Channel) :
    storeSymbols k ss c =
      if ss = [] ∨ k + ss.length ≤ c.cap then
        .ok { c with symbuf := storeFrom c.symbuf k ss, strobes := c.strobes ++ strobesFrom k ss }
      else .error .symbufOverrun := by
  induction ss generalizing k c with
  | nil => simp [storeSymbols, storeFrom, strobesFrom]
  | cons sy rest ih =>
    simp only [storeSymbols, memWrite]
    by_cases hk : k < c.cap
    · simp only [if_pos hk, ih]
      by_cases hr : rest = [] ∨ k + 1 + rest.length ≤ c.cap
      · have hc : sy :: rest = [] ∨ k + (sy :: rest).length ≤ c.cap := by
          right
          rcases hr with rfl | hr
          · simp; omega
          · simp; omega
        rw [if_pos hr, if_pos hc]
        simp [storeFrom, strobesFrom]
      · have hc : ¬(sy :: rest = [] ∨ k + (sy :: rest).length ≤ c.cap) := by
          rw [not_or] at hr ⊢
          refine ⟨by simp, ?_⟩
          simp
          omega
        rw [if_neg hr, if_neg hc]
    · have hc : ¬(sy :: rest = [] ∨ k + (sy :: rest).length ≤ c.cap) := by
        simp
        omega
      simp only [if_neg hk]
      rw [if_neg hc]

theorem read_storeFrom (m : Memory) (k : Nat) (ss : List Symbol) (j : Nat) :
    (storeFrom m k ss).read j =
      if h : k ≤ j ∧ j < k + ss.length then some (ss[j - k]'(by omega)).word else m.read j := by
  induction ss generalizing m k with
  | nil =>
    have : ¬(k ≤ j ∧ j < k + ([] : List Symbol).length) := by simp
    rw [dif_neg this, storeFrom]
  | cons sy rest ih =>
    rw [storeFrom, ih]
    by_cases h : k + 1 ≤ j ∧ j < k + 1 + rest.length
    · have h' : k ≤ j ∧ j < k + (sy :: rest).length := by simp; omega
      rw [dif_pos h, dif_pos h']
      obtain ⟨d, hd⟩ : ∃ d, j - k = d + 1 := ⟨j - k - 1, by omega⟩
      have hd' : j - (k + 1) = d := by omega
      simp [hd, hd']
    · rw [dif_neg h, Memory.read_write]
      by_cases hjk : j = k
      · subst hjk
        simp
      · have h' : ¬(k ≤ j ∧ j < k + (sy :: rest).length) := by simp; omega
        rw [if_neg hjk, dif_neg h']

theorem storeFrom_wf {m : Memory} (k : Nat) (ss : List Symbol) (h : m.wf) : (storeFrom m k ss).wf := by
  induction ss generalizing m k with
  | nil => exact h
  | cons sy rest ih => exact ih _ (Memory.write_wf _ _ h)

theorem storeFrom_below {m : Memory} {cap : Nat} (k : Nat) (ss : List Symbol) (hk : ss = [] ∨ k + ss.length ≤ cap)
    (h : ∀ p ∈ m, p.1 < cap) : ∀ p ∈ storeFrom m k ss, p.1 < cap := by
  induction ss generalizing m k with
  | nil => exact h
  | cons sy rest ih =>
    have hk' : k + (rest.length + 1) ≤ cap := by simpa using hk
    exact ih _ (.inr (by omega)) (Memory.write_below _ (by omega) h)

/-- `SEQ(f)` has 17 symbols (30_encoding.md R67). -/
@[simp] theorem symbolSeq_length (st : Straps) (f : Frame) : (symbolSeq st f).length = 17 := by
  simp [symbolSeq]

/-- `SEQ(f)` at a bit's index. -/
theorem symbolSeq_bit (st : Straps) (f : Frame) {t : Nat} (h : t < 16) :
    (symbolSeq st f)[t]? = some (bitSymbol st (frameBit f t)) := by
  rw [symbolSeq, List.getElem?_append_left (by simpa using h)]
  simp [h]

/-- `SEQ(f)` ends with the gap. -/
theorem symbolSeq_gap (st : Straps) (f : Frame) : (symbolSeq st f)[16]? = some (gapSymbol st) := by
  rw [symbolSeq, List.getElem?_append_right (by simp)]
  simp

theorem symbolSeq_drop_bit (st : Straps) (f : Frame) {t : Nat} (h : t < 16) :
    (symbolSeq st f).drop t = bitSymbol st (frameBit f t) :: (symbolSeq st f).drop (t + 1) := by
  rw [List.drop_eq_getElem_cons (by simp; omega)]
  congr 1
  have := symbolSeq_bit st f h
  rw [List.getElem?_eq_getElem (by simp; omega)] at this
  exact Option.some.inj this

theorem symbolSeq_drop_gap (st : Straps) (f : Frame) : (symbolSeq st f).drop 16 = [gapSymbol st] := by
  simp [symbolSeq]

/-- Emitting bits, said once: as many as there is room for, up to the 16th. -/
theorem emitBits_eq (st : Straps) (f : Frame) (room : Nat) (i : Fin 16) :
    emitBits st f room (.emittingBits i) =
      (((symbolSeq st f).drop i.val).take (min room (16 - i.val)), .ofCount (i.val + min room (16 - i.val))) := by
  induction room generalizing i with
  | zero => simp [emitBits, Phase.ofCount]
  | succ room ih =>
    obtain ⟨v, hv⟩ := i
    rw [emitBits, symbolSeq_drop_bit st f hv]
    simp only [afterBit]
    by_cases h : v + 1 < 16
    · rw [dif_pos h, ih]
      have hm : min (room + 1) (16 - v) = min room (16 - (v + 1)) + 1 := by omega
      simp only [hm, List.take_succ_cons]
      congr 2
      omega
    · rw [dif_neg h]
      obtain rfl : v = 15 := by omega
      cases room <;> simp [emitBits, Phase.ofCount]

/-- The emitted count and the armed state with it are inverse (41_symbol_encoder.md R113). -/
theorem ofCount_of_emittedCount {p : Phase} {e : Nat} (h : p.emittedCount = some e) : Phase.ofCount e = p := by
  cases p with
  | awaitingReset => cases h
  | emittingBits i =>
    cases h
    simp [Phase.ofCount]
  | emittingGap =>
    cases h
    rfl
  | done =>
    cases h
    rfl

theorem emittedCount_ofCount {e : Nat} (h : e ≤ 17) : (Phase.ofCount e).emittedCount = some e := by
  unfold Phase.ofCount
  split
  · rfl
  · split
    · simp [Phase.emittedCount, *]
    · simp [Phase.emittedCount]
      omega

theorem emittedCount_le {p : Phase} {e : Nat} (h : p.emittedCount = some e) : e ≤ 17 := by
  cases p with
  | awaitingReset => cases h
  | emittingBits i => cases h; omega
  | emittingGap => cases h; omega
  | done => cases h; omega

/-- One call's symbols and the phase they lead to, in closed form (41_symbol_encoder.md R113). -/
theorem emitSymbols_eq (st : Straps) (f : Frame) {p : Phase} {e : Nat} (h : p.emittedCount = some e) (room : Nat) :
    emitSymbols st f room p =
      (((symbolSeq st f).drop e).take (min room (17 - e)), .ofCount (e + min room (17 - e))) := by
  cases p with
  | awaitingReset => cases h
  | emittingBits i =>
    cases h
    obtain ⟨v, hv⟩ := i
    simp only [emitSymbols, emitBits_eq]
    have hlen : (((symbolSeq st f).drop v).take (min room (16 - v))).length = min room (16 - v) := by
      rw [List.length_take, List.length_drop, symbolSeq_length]
      omega
    rw [hlen]
    by_cases hr : room ≤ 16 - v
    · have h1 : min room (16 - v) = room := by omega
      have h2 : min room (17 - v) = room := by omega
      rw [h1, h2, Nat.sub_self]
      simp [emitGap]
    · have h1 : min room (16 - v) = 16 - v := by omega
      have h2 : min room (17 - v) = 17 - v := by omega
      obtain ⟨d, hd⟩ : ∃ d, room - (16 - v) = d + 1 := ⟨room - (16 - v) - 1, by omega⟩
      have h16 : v + (16 - v) = 16 := by omega
      have h17 : v + (17 - v) = 17 := by omega
      rw [h1, h2, hd, h16, h17]
      have hg : Phase.ofCount 16 = .emittingGap := rfl
      have hdn : Phase.ofCount 17 = .done := rfl
      simp only [hg, hdn, emitGap, Prod.mk.injEq, and_true]
      have hsplit : 17 - v = (16 - v) + 1 := by omega
      rw [hsplit, List.take_add_one, List.getElem?_drop, h16, symbolSeq_gap]
      rfl
  | emittingGap =>
    cases h
    rw [symbolSeq_drop_gap]
    cases room with
    | zero => rfl
    | succ room =>
      have hm : min (room + 1) (17 - 16) = 1 := by omega
      simp only [hm, List.take_succ_cons, List.take_zero]
      rfl
  | done =>
    cases h
    have hm : min room (17 - 17) = 0 := by omega
    simp only [hm]
    cases room <;> rfl

/-- The symbols of one call are as many as the closed form says. -/
theorem emitSymbols_length (st : Straps) (f : Frame) {p : Phase} {e : Nat} (h : p.emittedCount = some e) (room : Nat) :
    (emitSymbols st f room p).1.length = min room (17 - e) := by
  rw [emitSymbols_eq st f h, List.length_take, List.length_drop, symbolSeq_length]
  omega

/-- A call that raises nothing is in an armed state with symbols left, and has room (41_symbol_encoder.md R121). -/
theorem encodeError_none {p : Phase} {m : Int} :
    encodeError p m = none ↔ (∃ e, p.emittedCount = some e ∧ e < 17) ∧ 1 ≤ m := by
  cases p with
  | awaitingReset => simp [encodeError, Phase.emittedCount]
  | emittingBits i =>
    obtain ⟨v, hv⟩ := i
    have : v < 17 := by omega
    simp [encodeError, Phase.emittedCount, this]
  | emittingGap => simp [encodeError, Phase.emittedCount]
  | done => simp [encodeError, Phase.emittedCount]

/-- ENCODE_NEXT on one instance, said once: an error, an overrun, or the closed form. -/
theorem encodeNext_cases (f : Frame) (m : Int) (c : Channel) :
    (∃ err, encodeError c.phase m = some err ∧
      encodeNext f m c = .ok { c with rsp := some (.error err), strobes := [] }) ∨
    (∃ e n ss, encodeError c.phase m = none ∧ c.phase.emittedCount = some e ∧ e < 17 ∧ 1 ≤ m ∧
      n = min m.toNat (17 - e) ∧ 1 ≤ n ∧ ss = ((symbolSeq c.straps f).drop e).take n ∧ ss.length = n ∧
      ((c.cap < n ∧ encodeNext f m c = .error .symbufOverrun) ∨
       (n ≤ c.cap ∧ encodeNext f m c = .ok { c with
          phase := .ofCount (e + n), symbuf := storeFrom c.symbuf 0 ss, strobes := strobesFrom 0 ss,
          rsp := some (.encoded ss (Phase.ofCount (e + n)).isDone) }))) := by
  unfold encodeNext
  cases herr : encodeError c.phase m with
  | some err => exact .inl ⟨err, rfl, rfl⟩
  | none =>
    obtain ⟨⟨e, he, hlt⟩, hm⟩ := encodeError_none.mp herr
    right
    have hlen : (((symbolSeq c.straps f).drop e).take (min m.toNat (17 - e))).length = min m.toNat (17 - e) := by
      rw [List.length_take, List.length_drop, symbolSeq_length]
      omega
    have hn : 1 ≤ min m.toNat (17 - e) := by omega
    refine ⟨e, _, _, rfl, he, hlt, hm, rfl, hn, rfl, hlen, ?_⟩
    simp only [emitSymbols_eq _ f he, storeSymbols_eq]
    by_cases hc : min m.toNat (17 - e) ≤ c.cap
    · right
      refine ⟨hc, ?_⟩
      have hcond : (((symbolSeq c.straps f).drop e).take (min m.toNat (17 - e))) = [] ∨
          0 + (((symbolSeq c.straps f).drop e).take (min m.toNat (17 - e))).length ≤ c.quiet.cap := by
        right
        rw [hlen]
        simpa using hc
      rw [if_pos hcond]
      simp [Channel.setPhase, Channel.answer, Channel.quiet]
    · left
      refine ⟨by omega, ?_⟩
      have hcond : ¬((((symbolSeq c.straps f).drop e).take (min m.toNat (17 - e))) = [] ∨
          0 + (((symbolSeq c.straps f).drop e).take (min m.toNat (17 - e))).length ≤ c.quiet.cap) := by
        rintro (h0 | h0)
        · rw [h0] at hlen
          simp at hlen
          omega
        · rw [hlen] at h0
          simp at h0
          omega
      rw [if_neg hcond]

end Sys2Proof.Machine
end

