-- ==== Sys2Proof/Laws/Exec.lean ====
section
/-! SUPPORT. What executing an operation and taking a step can do, each said once. -/

namespace Sys2Proof.Machine

theorem strobesFrom_eq_zipIdx (k : Nat) (ss : List Symbol) :
    strobesFrom k ss = (ss.zipIdx k).map (fun p => (BitVec.ofNat 5 p.2, p.1.word)) := by
  induction ss generalizing k with
  | nil => rfl
  | cons sy rest ih => simp [strobesFrom, ih]

theorem strobesFrom_zero (ss : List Symbol) : strobesFrom 0 ss = strobesOf ss :=
  strobesFrom_eq_zipIdx 0 ss

/-- The slot numbers of up to 32 strobes are what they count. -/
theorem strobesFrom_slots {k : Nat} {ss : List Symbol} {p : BitVec 5 × SymWord} (hk : k + ss.length ≤ 32)
    (h : p ∈ strobesFrom k ss) : p.1.toNat < k + ss.length := by
  induction ss generalizing k with
  | nil => cases h
  | cons sy rest ih =>
    have hk' : k + (rest.length + 1) ≤ 32 := by simpa using hk
    rcases List.mem_cons.mp h with rfl | h'
    · simp only [BitVec.toNat_ofNat, List.length_cons]
      omega
    · have := ih (by omega) h'
      simp only [List.length_cons]
      omega

/-- Writing strobes is storing the symbols they came from. -/
theorem writeAll_strobesFrom {m : Memory} {k : Nat} {ss : List Symbol} (hk : k + ss.length ≤ 32) :
    m.writeAll (strobesFrom k ss) = storeFrom m k ss := by
  induction ss generalizing m k with
  | nil => rfl
  | cons sy rest ih =>
    have hk' : k + (rest.length + 1) ≤ 32 := by simpa using hk
    have : (BitVec.ofNat 5 k).toNat = k := by
      rw [BitVec.toNat_ofNat]
      omega
    simp only [strobesFrom, Memory.writeAll_cons, storeFrom, this]
    exact ih (by omega)

theorem strobesFrom_take (k n : Nat) (ss : List Symbol) :
    (strobesFrom k ss).take n = strobesFrom k (ss.take n) := by
  induction n generalizing k ss with
  | zero => simp [strobesFrom]
  | succ n ih =>
    cases ss with
    | nil => rfl
    | cons sy rest => simp [strobesFrom, ih]

/-- BUILD_FRAME, said once: its response and nothing else. -/
theorem execBuildFrame_cases (command : Int) (t b : Bool) (s : State) :
    ∃ r, exec (.buildFrame command t b) s = .next { s with cur := { s.cur with rsp := some r, strobes := [] } } ∧
      ((∃ f, buildFrame command t b = .ok f ∧ r = .frame f) ∨
       (∃ e, buildFrame command t b = .error e ∧ r = .error e)) := by
  have hx : exec (.buildFrame command t b) s = execBuildFrame command t b s := rfl
  rw [hx]
  unfold execBuildFrame
  cases buildFrame command t b with
  | error e => exact ⟨.error e, rfl, .inr ⟨e, rfl, rfl⟩⟩
  | ok f => exact ⟨.frame f, rfl, .inl ⟨f, rfl, rfl⟩⟩

/-- The range check of BUILD_FRAME (40_frame_builder.md R90 step 1). -/
theorem buildFrame_error_iff {command : Int} {t b : Bool} {e : ErrorKind} :
    buildFrame command t b = .error e ↔ e = .invalidCommand ∧ (command < 0 ∨ 2047 < command) := by
  unfold buildFrame
  by_cases h : command < 0 ∨ command > 2047
  · rw [if_pos h]
    exact ⟨fun he => ⟨(Except.error.inj he).symm, h⟩, fun he => by rw [he.1]⟩
  · rw [if_neg h]
    exact ⟨fun he => by simp at he, fun he => absurd he.2 h⟩

/-- RESET, said once. -/
theorem execReset_eq (s : State) :
    exec .reset s = .next { s with cur :=
      { s.cur with phase := .emittingBits 0, rsp := some .nothing, strobes := [] } } := rfl

/-- ENCODE_NEXT, said once, over the machine: an error, an overrun, or the closed form (41_symbol_encoder.md R113). -/
theorem execEncodeNext_cases (f : Frame) (m : Int) (s : State) :
    (∃ err, encodeError s.cur.phase m = some err ∧
      exec (.encodeNext f m) s = .next { s with cur := { s.cur with rsp := some (.error err), strobes := [] } }) ∨
    (∃ e n ss, encodeError s.cur.phase m = none ∧ s.cur.phase.emittedCount = some e ∧ e < 17 ∧ 1 ≤ m ∧
      n = min m.toNat (17 - e) ∧ 1 ≤ n ∧ ss = ((symbolSeq s.cur.straps f).drop e).take n ∧ ss.length = n ∧
      ((s.cur.cap < n ∧ exec (.encodeNext f m) s = .fault .symbufOverrun) ∨
       (n ≤ s.cur.cap ∧ exec (.encodeNext f m) s = .next { s with cur := { s.cur with
          phase := .ofCount (e + n), symbuf := storeFrom s.cur.symbuf 0 ss, strobes := strobesFrom 0 ss,
          rsp := some (.encoded ss (Phase.ofCount (e + n)).isDone) } }))) := by
  have hx : exec (.encodeNext f m) s = execEncodeNext f m s := rfl
  rw [hx]
  unfold execEncodeNext
  rcases encodeNext_cases f m s.cur with ⟨err, herr, hok⟩ | ⟨e, n, ss, herr, he, hlt, hm, hn, h1, hss, hlen, hr⟩
  · exact .inl ⟨err, herr, by rw [hok]⟩
  · refine .inr ⟨e, n, ss, herr, he, hlt, hm, hn, h1, hss, hlen, ?_⟩
    rcases hr with ⟨hc, hr⟩ | ⟨hc, hr⟩
    · exact .inl ⟨hc, by rw [hr]⟩
    · exact .inr ⟨hc, by rw [hr]⟩

/-- No operation touches another instance, the script, or its own instance's inputs. -/
theorem exec_frame {i : Instr} {s t : State} (h : exec i s = .next t) :
    t = { s with cur := { s.cur with
      phase := t.cur.phase, symbuf := t.cur.symbuf, rsp := t.cur.rsp, strobes := t.cur.strobes } } := by
  cases i with
  | buildFrame c tel b =>
    obtain ⟨r, hr, -⟩ := execBuildFrame_cases c tel b s
    rw [hr] at h
    cases h
    rfl
  | reset =>
    rw [execReset_eq] at h
    cases h
    rfl
  | encodeNext f m =>
    rcases execEncodeNext_cases f m s with ⟨err, -, hr⟩ | ⟨e, n, ss, -, -, -, -, -, -, -, -, ⟨-, hr⟩ | ⟨-, hr⟩⟩
    · rw [hr] at h
      cases h
      rfl
    · rw [hr] at h
      cases h
    · rw [hr] at h
      cases h
      rfl

/-- A clock of an instance that accepts the request on its port. -/
theorem clockChannel_request {s : State} {w : ReqWord} (hr : s.cur.hwRst = false) (hq : s.cur.req = some w) :
    clockChannel s = acceptRequest w { s with cur := { s.cur with req := none } } := by
  unfold clockChannel
  rw [if_neg (by simp [hr]), hq]
  rfl

/-- An accepted request word runs as the operation it decodes to. -/
theorem acceptRequest_ok {w : ReqWord} {i : Instr} (h : decode w = .ok i) (s : State) :
    acceptRequest w s = exec i s := by
  simp only [acceptRequest, h]

/-- One step with an input pending, on the channel it is addressed to. -/
theorem step_cons {s t : State} {input : Input} {rest : List Input} (hs : s.script = input :: rest)
    (ht : State.selectChannel input.channel { s with script := rest } = some t) : step s = serve input t := by
  simp only [step, nextInput, hs, ht]

end Sys2Proof.Machine
end

