-- ==== Sys2Proof/Laws/Step.lean ====
section
/-! SUPPORT. A step acts on one instance: every operation and every input as a function of the instance alone, and the
step as that function put in its place among the others. -/

namespace Sys2Proof.Machine

/-- An operation as a function of its instance. -/
def execOn : Instr → Channel → Except Fault Channel
  | .buildFrame c t b, ch =>
    match buildFrame c t b with
    | .error e => .ok (ch.raise e)
    | .ok f => .ok (ch.quiet.answer (.frame f))
  | .reset, ch => .ok ((ch.quiet.setPhase (.emittingBits 0)).answer .nothing)
  | .encodeNext f m, ch => encodeNext f m ch

/-- The result of something done to the current instance, among the others. -/
def State.lift (s : State) : Host.Outcome Channel Fault Refusal → Host.Outcome State Fault Refusal
  | .next c => .next { s with cur := c }
  | .fault f => .fault f
  | .refused r => .refused r

/-- The outcome of an operation that cannot be refused. -/
def exceptOutcome : Except Fault Channel → Host.Outcome Channel Fault Refusal
  | .ok c => .next c
  | .error f => .fault f

@[simp] theorem State.lift_next (s : State) (c : Channel) : s.lift (.next c) = .next { s with cur := c } := rfl
@[simp] theorem State.lift_fault (s : State) (f : Fault) : s.lift (.fault f) = .fault f := rfl
@[simp] theorem State.lift_refused (s : State) (r : Refusal) : s.lift (.refused r) = .refused r := rfl

theorem exec_eq_lift (i : Instr) (s : State) : exec i s = s.lift (exceptOutcome (execOn i s.cur)) := by
  cases i with
  | buildFrame c t b =>
    have hx : exec (.buildFrame c t b) s = execBuildFrame c t b s := rfl
    rw [hx]
    simp only [execBuildFrame, execOn]
    cases buildFrame c t b <;> rfl
  | reset => rfl
  | encodeNext f m =>
    have hx : exec (.encodeNext f m) s = execEncodeNext f m s := rfl
    rw [hx]
    simp only [execEncodeNext, execOn]
    cases encodeNext f m s.cur <;> rfl

/-- An accepted request as a function of its instance. -/
def acceptOn (w : ReqWord) (c : Channel) : Host.Outcome Channel Fault Refusal :=
  match decode w with
  | .error .reservedSelect => .refused .reservedRequest
  | .ok i => exceptOutcome (execOn i c)

/-- An accepted request that answers was an operation, performed. -/
theorem acceptOn_next {w : ReqWord} {c d : Channel} (h : acceptOn w c = .next d) :
    ∃ i, decode w = .ok i ∧ execOn i c = .ok d := by
  unfold acceptOn at h
  split at h
  · cases h
  · rename_i i hd
    cases hx : execOn i c with
    | error f => simp [hx, exceptOutcome] at h
    | ok d' =>
      simp only [hx, exceptOutcome] at h
      cases h
      exact ⟨i, hd, hx⟩

theorem acceptRequest_eq_lift (w : ReqWord) (s : State) : acceptRequest w s = s.lift (acceptOn w s.cur) := by
  unfold acceptRequest acceptOn
  cases decode w with
  | error e => cases e; rfl
  | ok i => exact exec_eq_lift i s

/-- One clock as a function of its instance. -/
def clockOn (c : Channel) : Host.Outcome Channel Fault Refusal :=
  if c.hwRst then .next c.hardwareReset
  else
    match c.req with
    | none => .next c.quiet
    | some w => acceptOn w { c with req := none }

theorem clockChannel_eq_lift (s : State) : clockChannel s = s.lift (clockOn s.cur) := by
  unfold clockChannel clockOn
  by_cases hr : s.cur.hwRst = true
  · rw [if_pos hr, if_pos hr]
    rfl
  · rw [if_neg hr, if_neg hr]
    cases hq : s.cur.req with
    | none => rfl
    | some w => exact acceptRequest_eq_lift _ _

/-- One input as a function of its instance. -/
def serveOn (input : Input) (c : Channel) : Host.Outcome Channel Fault Refusal :=
  match input with
  | .request _ w => clockOn { c with req := some w }
  | .withdraw _ => clockOn { c with req := none }
  | .clock _ => clockOn c
  | .hwReset _ level => clockOn { c with hwRst := level }
  | .requestCut _ w writes =>
    if c.hwRst then .next { c.hardwareReset with req := some w }
    else
      match acceptOn w { c with req := none } with
      | .next d => .next (cutOperation writes c d)
      | .fault f => .fault f
      | .refused r => .refused r
  | .configure _ st => clockOn { c with straps := st }
  | .provideBuffer _ cap =>
    if cap = 0 then .refused .emptyBuffer else clockOn { c with cap := cap, symbuf := [] }
  | .hostStore _ slot w =>
    if slot < c.cap then clockOn { c with symbuf := c.symbuf.write slot w } else .fault .symbufOverrun

theorem serve_eq_lift (input : Input) (s : State) : serve input s = s.lift (serveOn input s.cur) := by
  cases input with
  | requestCut ch w writes =>
    simp only [serve, serveOn, clockCut]
    by_cases hr : s.cur.hwRst = true
    · rw [if_pos hr, if_pos hr]
      rfl
    · rw [if_neg hr, if_neg hr]
      simp only [acceptRequest_eq_lift, State.mapCur_cur]
      cases acceptOn w { s.cur with req := none } <;> rfl
  | provideBuffer ch cap =>
    simp only [serve, serveOn]
    split
    · rfl
    · exact clockChannel_eq_lift _
  | hostStore ch slot w =>
    simp only [serve, serveOn]
    split
    · exact clockChannel_eq_lift _
    · rfl
  | request ch w => exact clockChannel_eq_lift _
  | withdraw ch => exact clockChannel_eq_lift _
  | clock ch => exact clockChannel_eq_lift _
  | hwReset ch level => exact clockChannel_eq_lift _
  | configure ch st => exact clockChannel_eq_lift _

/-- A step with an input pending, said once: no such channel, or the input served on its channel, put back in its
place. -/
theorem step_cases {s : State} {input : Input} {rest : List Input} (hs : s.script = input :: rest) :
    (s.channels.length ≤ input.channel ∧ step s = .refused .noSuchChannel) ∨
    (∃ t : State, t.channels = s.channels ∧ t.index = input.channel ∧ t.script = rest ∧
      s.channels[input.channel]? = some t.cur ∧ step s = t.lift (serveOn input t.cur)) := by
  by_cases hk : input.channel < s.channels.length
  · right
    obtain ⟨t, ht⟩ := (State.selectChannel_isSome (s := { s with script := rest })).mpr hk
    obtain ⟨hc, hi, hsc, hg⟩ := State.selectChannel_eq ht
    exact ⟨t, hc, hi, hsc, hg, by rw [step_cons hs ht, serve_eq_lift]⟩
  · left
    refine ⟨by omega, ?_⟩
    have : State.selectChannel input.channel { s with script := rest } = none := by
      cases h : State.selectChannel input.channel { s with script := rest } with
      | none => rfl
      | some t => exact absurd (State.selectChannel_isSome.mp ⟨t, h⟩) hk
    simp only [step, nextInput, hs, this]

/-- Changing the current instance changes the channel list at its number only. -/
theorem channels_set_cur (t : State) (d : Channel) :
    State.channels { t with cur := d } = t.channels.set t.index d := by
  simp [State.channels, State.index]

/-- Operations leave straps, capacity, `hw_rst` and request lines of their instance. -/
theorem execOn_inputs {i : Instr} {c d : Channel} (h : execOn i c = .ok d) :
    d.straps = c.straps ∧ d.cap = c.cap ∧ d.hwRst = c.hwRst ∧ d.req = c.req := by
  have hx : exec i { before := [], cur := c, after := [], script := [] } =
      .next { before := [], cur := d, after := [], script := [] } := by
    rw [exec_eq_lift, h]
    rfl
  have hd : d = { c with phase := d.phase, symbuf := d.symbuf, rsp := d.rsp, strobes := d.strobes } :=
    congrArg State.cur (exec_frame hx)
  rw [hd]
  exact ⟨rfl, rfl, rfl, rfl⟩

end Sys2Proof.Machine
end

