-- ==== Sys2Proof/Laws/Caller.lean ====
section
/-! SUPPORT. Sequences of operations, one operation at a time, and what a successful call adds to them. -/

namespace Sys2Proof.Machine

@[simp] theorem Response.symbols_encoded (ss : List Symbol) (d : Bool) : (Response.encoded ss d).symbols = ss := rfl
@[simp] theorem Response.symbols_frame (f : Frame) : (Response.frame f).symbols = [] := rfl
@[simp] theorem Response.symbols_nothing : Response.nothing.symbols = [] := rfl
@[simp] theorem Response.symbols_error (e : ErrorKind) : (Response.error e).symbols = [] := rfl
@[simp] theorem Response.doneBit_encoded (ss : List Symbol) (d : Bool) : (Response.encoded ss d).doneBit = d := rfl
@[simp] theorem Response.doneBit_frame (f : Frame) : (Response.frame f).doneBit = false := rfl
@[simp] theorem Response.doneBit_nothing : Response.nothing.doneBit = false := rfl
@[simp] theorem Response.doneBit_error (e : ErrorKind) : (Response.error e).doneBit = false := rfl

@[simp] theorem stop_eq (s : State) : stop s = .next (s, []) := rfl
@[simp] theorem issue_nil (s : State) : issue [] s = .next (s, []) := rfl

/-- An operation and what its caller goes on with answer when both do. -/
theorem perform_next {i : Instr} {andThen : Response → State → Sequence} {s t u : State} {r : Response}
    {rs : List Response} (hi : exec i s = .next t) (hr : t.cur.rsp = some r) (ha : andThen r t = .next (u, rs)) :
    perform i andThen s = .next (u, r :: rs) := by
  simp only [perform, hi, hr, ha]

/-- Every operation that answers gives a response. -/
theorem exec_rsp {i : Instr} {s t : State} (h : exec i s = .next t) : ∃ r, t.cur.rsp = some r := by
  cases i with
  | buildFrame c tel b =>
    obtain ⟨r, hr, -⟩ := execBuildFrame_cases c tel b s
    rw [hr] at h
    cases h
    exact ⟨r, rfl⟩
  | reset =>
    rw [execReset_eq] at h
    cases h
    exact ⟨_, rfl⟩
  | encodeNext f m =>
    rcases execEncodeNext_cases f m s with ⟨err, -, hx⟩ | ⟨e, n, ss, -, -, -, -, -, -, -, -, ⟨-, hx⟩ | ⟨-, hx⟩⟩
    · rw [hx] at h
      cases h
      exact ⟨_, rfl⟩
    · rw [hx] at h
      cases h
    · rw [hx] at h
      cases h
      exact ⟨_, rfl⟩

/-- The same of an operation on one instance. -/
theorem execOn_rsp {i : Instr} {c d : Channel} (h : execOn i c = .ok d) : ∃ r, d.rsp = some r := by
  have hx : exec i { before := [], cur := c, after := [], script := [] } =
      .next { before := [], cur := d, after := [], script := [] } := by
    rw [exec_eq_lift, h]
    rfl
  exact exec_rsp hx

/-- What an operation and what its caller goes on with have done, when both have answered. -/
theorem perform_inv {i : Instr} {andThen : Response → State → Sequence} {s u : State} {rs : List Response}
    (h : perform i andThen s = .next (u, rs)) :
    ∃ t r rs', exec i s = .next t ∧ t.cur.rsp = some r ∧ andThen r t = .next (u, rs') ∧ rs = r :: rs' := by
  unfold perform at h
  cases hi : exec i s with
  | fault f => simp [hi] at h
  | refused r => simp [hi] at h
  | next t =>
    obtain ⟨r, hr⟩ := exec_rsp hi
    simp only [hi, hr] at h
    cases hrest : andThen r t with
    | fault f => simp [hrest] at h
    | refused r => simp [hrest] at h
    | next p =>
      simp only [hrest] at h
      cases h
      exact ⟨t, r, _, rfl, hr, hrest, rfl⟩

/-- A sequence answers when its first operation does and the rest does after it. -/
theorem issue_cons {i : Instr} {rest : List Instr} {s t u : State} {r : Response} {rs : List Response}
    (hi : exec i s = .next t) (hr : t.cur.rsp = some r) (hrest : issue rest t = .next (u, rs)) :
    issue (i :: rest) s = .next (u, r :: rs) :=
  perform_next hi hr hrest

/-- A sequence that answers, taken apart at its first operation. -/
theorem issue_cons_inv {i : Instr} {rest : List Instr} {s u : State} {rs : List Response}
    (h : issue (i :: rest) s = .next (u, rs)) :
    ∃ t r rs', exec i s = .next t ∧ t.cur.rsp = some r ∧ issue rest t = .next (u, rs') ∧ rs = r :: rs' :=
  perform_inv h

/-- A drain that answers, taken apart at its first call: it ends there, or that call was not yet the last. -/
theorem drainWithin_inv {frame : Frame} {n : Int} {calls : Nat} {s u : State} {rs : List Response}
    (h : drainWithin frame n (calls + 1) s = .next (u, rs)) :
    ∃ t r rs', exec (.encodeNext frame n) s = .next t ∧ t.cur.rsp = some r ∧ rs = r :: rs' ∧
      ((∃ ss, r = .encoded ss false ∧ drainWithin frame n calls t = .next (u, rs')) ∨
       ((∀ ss, r ≠ .encoded ss false) ∧ u = t ∧ rs' = [])) := by
  obtain ⟨t, r, rs', hx, hr, ha, rfl⟩ := perform_inv h
  refine ⟨t, r, rs', hx, hr, rfl, ?_⟩
  split at ha
  · rename_i ss
    exact .inl ⟨ss, rfl, ha⟩
  · rename_i hne
    cases ha
    exact .inr ⟨hne, rfl, rfl⟩

/-- A whole sequence leaves the inputs of its instance. -/
theorem issue_inputs {is : List Instr} {s t : State} {rs : List Response} (h : issue is s = .next (t, rs)) :
    t.cur.straps = s.cur.straps ∧ t.cur.cap = s.cur.cap := by
  induction is generalizing s rs with
  | nil =>
    cases h
    exact ⟨rfl, rfl⟩
  | cons i rest ih =>
    obtain ⟨u, r, rs', hx, -, hi, -⟩ := issue_cons_inv h
    have hf := exec_frame hx
    have hu := ih hi
    rw [hf] at hu
    exact hu

/-- What serving an input does to the phase and the response of its instance, said once: it takes its reset state, it
does nothing of itself, or it performs the request on its port. -/
theorem serveOn_cases {input : Input} {c d : Channel} (h : serveOn input c = .next d) :
    (d.hwRst = true ∧ d.phase = .awaitingReset ∧ d.rsp = none) ∨
    (d.hwRst = false ∧ input.offered c = none ∧ d.phase = c.phase ∧ d.rsp = none) ∨
    (d.hwRst = false ∧ ∃ w i c', input.offered c = some w ∧ decode w = .ok i ∧ c'.phase = c.phase ∧
      execOn i c' = .ok d) := by
  have clock : ∀ {c' : Channel}, clockOn c' = .next d → c'.phase = c.phase → c'.req = input.offered c →
      (d.hwRst = true ∧ d.phase = .awaitingReset ∧ d.rsp = none) ∨
      (d.hwRst = false ∧ input.offered c = none ∧ d.phase = c.phase ∧ d.rsp = none) ∨
      (d.hwRst = false ∧ ∃ w i c', input.offered c = some w ∧ decode w = .ok i ∧ c'.phase = c.phase ∧
        execOn i c' = .ok d) := by
    intro c' hc hp hq
    unfold clockOn at hc
    split at hc
    · rename_i hr
      cases hc
      exact .inl ⟨hr, rfl, rfl⟩
    · rename_i hr
      rw [Bool.not_eq_true] at hr
      split at hc
      · rename_i hn
        cases hc
        exact .inr (.inl ⟨hr, by rw [← hq, hn], hp, rfl⟩)
      · rename_i w hw
        obtain ⟨i, hd, hx⟩ := acceptOn_next hc
        exact .inr (.inr ⟨(execOn_inputs hx).2.2.1.trans hr, w, i, { c' with req := none }, by rw [← hq, hw], hd, hp, hx⟩)
  cases input with
  | request ch w => exact clock h rfl rfl
  | withdraw ch => exact clock h rfl rfl
  | clock ch => exact clock h rfl rfl
  | hwReset ch level => exact clock h rfl rfl
  | configure ch st => exact clock h rfl rfl
  | requestCut ch w writes =>
    left
    simp only [serveOn] at h
    split at h
    · rename_i hr
      cases h
      exact ⟨hr, rfl, rfl⟩
    · split at h
      · cases h
        exact ⟨rfl, rfl, rfl⟩
      · cases h
      · cases h
  | provideBuffer ch cap =>
    simp only [serveOn] at h
    split at h
    · cases h
    · exact clock h rfl rfl
  | hostStore ch slot w =>
    simp only [serveOn] at h
    split at h
    · exact clock h rfl rfl
    · cases h

/-- What a step of an instance is for its transmission, said once, with what it did to the phase. -/
theorem eventOf_cases {input : Input} {c d : Channel} (h : serveOn input c = .next d) :
    (eventOf input c d = some .hardwareReset ∧ d.phase = .awaitingReset) ∨
    (eventOf input c d = none ∧ d.phase = c.phase) ∨
    (∃ i r c', eventOf input c d = some (.operation i r) ∧ d.rsp = some r ∧ c'.phase = c.phase ∧
      execOn i c' = .ok d) := by
  rcases serveOn_cases h with ⟨hr, hp, -⟩ | ⟨hr, hq, hp, hs⟩ | ⟨hr, w, i, c', hq, hd, hp, hx⟩
  · exact .inl ⟨by simp [eventOf, hr], hp⟩
  · exact .inr (.inl ⟨by simp [eventOf, hr, hq], hp⟩)
  · obtain ⟨r, hs⟩ := execOn_rsp hx
    exact .inr (.inr ⟨i, r, c', by simp [eventOf, hr, hq, hs, hd], hs, hp, hx⟩)

end Sys2Proof.Machine
end

