-- ==== Sys2Proof/Laws/Decode.lean ====
section
/-! SUPPORT. The decoder, one lemma per select code, and the operands it can give. -/

namespace Sys2Proof

theorem decode_buildFrame {w : ReqWord} (h : opField w = 0b01#2) :
    decode w = .ok (.buildFrame ((w.extractLsb' 0 16).toNat : Int) (w.getLsbD 16) (w.getLsbD 17)) := by
  simp [decode, h]

theorem decode_reset {w : ReqWord} (h : opField w = 0b10#2) : decode w = .ok .reset := by
  simp [decode, h]

theorem decode_encodeNext {w : ReqWord} (h : opField w = 0b11#2) :
    decode w = .ok (.encodeNext (w.extractLsb' 0 16) ((w.extractLsb' 16 8).toNat : Int)) := by
  simp [decode, h]

theorem decode_reserved {w : ReqWord} (h : opField w = 0b00#2) : decode w = .error .reservedSelect := by
  simp [decode, h]

/-- The four select codes, and no other. -/
theorem opField_cases (w : ReqWord) :
    opField w = 0b00#2 ∨ opField w = 0b01#2 ∨ opField w = 0b10#2 ∨ opField w = 0b11#2 := by
  generalize opField w = o
  revert o
  decide

/-- Every operation the decoder gives fits its request word. -/
theorem decode_wf {w : ReqWord} {i : Instr} (h : decode w = .ok i) : i.wf = true := by
  rcases opField_cases w with ho | ho | ho | ho
  · rw [decode_reserved ho] at h
    cases h
  · rw [decode_buildFrame ho] at h
    cases h
    have := (w.extractLsb' 0 16).isLt
    simp only [Instr.wf, decide_eq_true_eq]
    omega
  · rw [decode_reset ho] at h
    cases h
    rfl
  · rw [decode_encodeNext ho] at h
    cases h
    have := (w.extractLsb' 16 8).isLt
    simp only [Instr.wf, decide_eq_true_eq]
    omega

/-- Every bit of a BUILD_FRAME request word (30_encoding.md R69). -/
theorem encode_buildFrame_bit (command : Int) (telemetry bidirectional : Bool) (k : Nat) :
    (encode (.buildFrame command telemetry bidirectional)).getLsbD k =
      if k < 16 then (BitVec.ofInt 16 command).getLsbD k
      else if k = 16 then telemetry else if k = 17 then bidirectional else decide (k = 30) := by
  by_cases hk : k < 32
  · simp only [encode]
    rw [BitVec.getLsbD_append, BitVec.getLsbD_append, BitVec.getLsbD_append]
    by_cases h : k < 16
    · simp [h]
    · interval_cases k <;> first | omega | simp
  · have h16 : ¬k < 16 := by omega
    have h : ¬k = 16 ∧ ¬k = 17 ∧ ¬k = 30 := by omega
    rw [BitVec.getLsbD_of_ge _ _ (by omega)]
    simp [h16, h]

/-- Every bit of an ENCODE_NEXT request word (30_encoding.md R71). -/
theorem encode_encodeNext_bit (frame : Frame) (maxSymbols : Int) (k : Nat) :
    (encode (.encodeNext frame maxSymbols)).getLsbD k =
      if k < 16 then frame.getLsbD k
      else if k < 24 then (BitVec.ofInt 8 maxSymbols).getLsbD (k - 16) else decide (k = 30 ∨ k = 31) := by
  by_cases hk : k < 32
  · simp only [encode]
    rw [BitVec.getLsbD_append, BitVec.getLsbD_append]
    by_cases h : k < 16
    · simp [h]
    · by_cases h24 : k < 24
      · have h8 : k - 16 < 8 := by omega
        simp [h, h24, h8]
      · interval_cases k <;> first | omega | simp
  · have h16 : ¬k < 16 := by omega
    have h : ¬k < 24 ∧ ¬(k = 30 ∨ k = 31) := by omega
    rw [BitVec.getLsbD_of_ge _ _ (by omega)]
    simp [h16, h]

end Sys2Proof
end

