-- ==== Sys2Proof/Laws/PerInstr.lean ====
section
/-! SUPPORT. Facts about every operation as syntax, one lemma per constructor. -/

namespace Sys2Proof.Laws

/-- The request word of an operation carries its select code, and no reserved bit of its format is set
(30_encoding.md R69 to R71, R74). -/
def SelectCode.Statement (i : Instr) : Prop :=
  opField (encode i) = i.select ∧ encode i &&& ~~~i.definedBits = 0#32

theorem SelectCode.buildFrame (command : Int) (telemetry bidirectional : Bool) :
    SelectCode.Statement (.buildFrame command telemetry bidirectional) := by
  constructor
  · ext k hk
    simp only [opField, BitVec.getElem_extractLsb', encode_buildFrame_bit]
    interval_cases k <;> simp [Instr.select]
  · apply BitVec.eq_of_getLsbD_eq
    intro k hk
    simp only [BitVec.getLsbD_and, encode_buildFrame_bit, Instr.definedBits]
    interval_cases k <;> simp

theorem SelectCode.reset : SelectCode.Statement .reset := by
  unfold SelectCode.Statement
  decide

theorem SelectCode.encodeNext (frame : Frame) (maxSymbols : Int) :
    SelectCode.Statement (.encodeNext frame maxSymbols) := by
  constructor
  · ext k hk
    simp only [opField, BitVec.getElem_extractLsb', encode_encodeNext_bit]
    interval_cases k <;> simp [Instr.select]
  · apply BitVec.eq_of_getLsbD_eq
    intro k hk
    simp only [BitVec.getLsbD_and, encode_encodeNext_bit, Instr.definedBits]
    interval_cases k <;> simp

end Sys2Proof.Laws
end

