-- ==== Sys2Proof/Tests/Slice0.lean ====
section
/-! SUPPORT. The model's own tests: well-formedness, request words written out from the spec's formats, vectors of
95_test_vectors.md (REF80), and for every obligation with hypotheses a concrete case that meets them. -/

namespace Sys2Proof.Machine.Tests

open Sys2Proof

/-- REF80 with `BIDIR` 0: the spec gives REF80 no `BIDIR`, and no operation of the block reads it. -/
def REF80 : Straps := Straps.ref80 false

/-- An instance in this phase, REF80, with a buffer of `cap` slots of which none is written. -/
def chanAt (p : Phase) (cap : Nat) : Channel :=
  { phase := p, straps := REF80, cap := cap, symbuf := [], hwRst := false, req := none, rsp := none,
    strobes := [] }

/-- A machine of that one instance. -/
def stateAt (p : Phase) (cap : Nat) : State :=
  { before := [], cur := chanAt p cap, after := [], script := [] }

/-- A machine of two instances, the second current, with these things about to happen. -/
def twoChannels (script : List Input) : State :=
  { before := [chanAt (.emittingBits 0) 17], cur := chanAt .emittingGap 1, after := [], script := script }

/-- An instance held in hardware reset. -/
def heldChannel : Channel :=
  { chanAt .awaitingReset 4 with hwRst := true }

/-- A held instance beside the current one. -/
def inReset (script : List Input) : State :=
  { before := [heldChannel], cur := chanAt .done 1, after := [], script := script }

/-- One instance with these things about to happen. -/
def withScript (c : Channel) (script : List Input) : State :=
  { before := [], cur := c, after := [], script := script }

/-- The response of the current instance after an outcome. -/
def rspOf : Host.Outcome State Fault Refusal → Option Response
  | .next t => t.cur.rsp
  | _ => none

/-- The phase of the current instance after an outcome. -/
def phaseOf : Host.Outcome State Fault Refusal → Option Phase
  | .next t => some t.cur.phase
  | _ => none

/-- The writes of the current instance in an outcome. -/
def strobesIn : Host.Outcome State Fault Refusal → List (BitVec 5 × SymWord)
  | .next t => t.cur.strobes
  | _ => []

/-- The response word after an outcome. -/
def wordOf (o : Host.Outcome State Fault Refusal) : Option RspWord :=
  (rspOf o).map Response.word

def frame7D0A : Frame := 0x7D0A#16

-- Well-formedness (30_encoding.md R69, R71, R76)

theorem test_wf_refuses_negative_command : Instr.wf (.buildFrame (-1) false false) = false := by decide

theorem test_wf_refuses_command_of_17_bits : Instr.wf (.buildFrame 65536 false false) = false := by decide

theorem test_wf_refuses_negative_max_symbols : Instr.wf (.encodeNext frame7D0A (-1)) = false := by decide

theorem test_wf_refuses_max_symbols_of_9_bits : Instr.wf (.encodeNext frame7D0A 256) = false := by decide

theorem test_wf_accepts_the_bounds :
    Instr.wf (.buildFrame 0 false true) = true ∧ Instr.wf (.buildFrame 65535 true false) = true ∧
    Instr.wf .reset = true ∧ Instr.wf (.encodeNext 0#16 0) = true ∧
    Instr.wf (.encodeNext 0xFFFF#16 255) = true := by decide

-- Decoding: words written out bit by bit from 30_encoding.md R69 to R71 and R75

/-- R69: `01`, 12 reserved bits, `b`, `t`, 16 bits of command; vectors F13 and F8. -/
theorem test_decode_build_frame :
    decodeTableWord 32 0b01000000000000000000001111101000 = some (.buildFrame 1000 false false) ∧
    decodeTableWord 32 0b01000000000000110000010000010110 = some (.buildFrame 1046 true true) := by decide

/-- R69: telemetry is bit 16 and bidirectional bit 17; vectors F15 and F14. -/
theorem test_decode_build_frame_flags :
    decodeTableWord 32 0b01000000000000010000001111101000 = some (.buildFrame 1000 true false) ∧
    decodeTableWord 32 0b01000000000000100000001111101000 = some (.buildFrame 1000 false true) := by decide

/-- R75 (b): reserved bits set, the word of section 2 of the vectors. -/
theorem test_decode_ignores_reserved_bits :
    decodeTableWord 32 0b01111111111111000000001111101000 = some (.buildFrame 1000 false false) := by decide

/-- R70. -/
theorem test_decode_reset :
    decodeTableWord 32 0b10000000000000000000000000000000 = some .reset ∧
    decodeTableWord 32 0b10101010101010101010101010101010 = some .reset := by decide

/-- R71: `11`, 6 reserved bits, 8 bits of max_symbols, the frame; vectors C2 and C6. -/
theorem test_decode_encode_next :
    decodeTableWord 32 0b11000000000100010111110100001010 = some (.encodeNext frame7D0A 17) ∧
    decodeTableWord 32 0b11000000110010000111110100001010 = some (.encodeNext frame7D0A 200) := by decide

/-- R75 (a): the reserved select code. -/
theorem test_decode_refuses_reserved_select :
    decodeTableWord 32 0b00000000000000000000001111101000 = none := by decide

/-- The request words of vectors FE2, C1 and T1. -/
theorem test_encode_vectors :
    encode (.buildFrame 2049 true true) = 0x40030801#32 ∧ encode (.encodeNext frame7D0A 4) = 0xC0047D0A#32 ∧
    encode .reset = 0x80000000#32 := by decide

-- The operations, on vectors of 95_test_vectors.md

/-- F13, F16 and F24: frames and response words. -/
theorem test_build_frame_vectors :
    wordOf (exec (.buildFrame 1000 false false) (stateAt .done 1)) = some 0x00007D0A#32 ∧
    wordOf (exec (.buildFrame 1000 true true) (stateAt .done 1)) = some 0x00007D14#32 ∧
    wordOf (exec (.buildFrame 2047 true true) (stateAt .done 1)) = some 0x0000FFF0#32 := by decide

/-- FE1 and FE6: no wrapping and no saturating. -/
theorem test_build_frame_out_of_range :
    wordOf (exec (.buildFrame 2048 false false) (stateAt (.emittingBits 5) 1)) = some 0x40000000#32 ∧
    phaseOf (exec (.buildFrame 2048 false false) (stateAt (.emittingBits 5) 1)) = some (.emittingBits 5) ∧
    wordOf (exec (.buildFrame (-1) false false) (stateAt .done 1)) = some 0x40000000#32 := by decide

/-- T1 to T6: RESET from every kind of phase. -/
theorem test_reset_vectors :
    phaseOf (exec .reset (stateAt .awaitingReset 1)) = some (.emittingBits 0) ∧
    phaseOf (exec .reset (stateAt (.emittingBits 7) 1)) = some (.emittingBits 0) ∧
    phaseOf (exec .reset (stateAt .emittingGap 1)) = some (.emittingBits 0) ∧
    phaseOf (exec .reset (stateAt .done 1)) = some (.emittingBits 0) ∧
    wordOf (exec .reset (stateAt .done 1)) = some 0#32 := by decide

/-- C1 with its port-level order of writes, and C8. -/
theorem test_encode_next_vectors :
    wordOf (exec (.encodeNext frame7D0A 4) (stateAt (.emittingBits 0) 4)) = some 0x00040000#32 ∧
    strobesIn (exec (.encodeNext frame7D0A 4) (stateAt (.emittingBits 0) 4)) =
      [(0#5, 0x001E0032#32), (1#5, 0x003C0014#32), (2#5, 0x003C0014#32), (3#5, 0x003C0014#32)] ∧
    phaseOf (exec (.encodeNext frame7D0A 4) (stateAt (.emittingBits 0) 4)) = some (.emittingBits 4) ∧
    wordOf (exec (.encodeNext frame7D0A 2) (stateAt (.emittingBits 15) 2)) = some 0x01020000#32 ∧
    strobesIn (exec (.encodeNext frame7D0A 2) (stateAt (.emittingBits 15) 2)) =
      [(0#5, 0x001E0032#32), (1#5, 0x000004B0#32)] ∧
    phaseOf (exec (.encodeNext frame7D0A 2) (stateAt (.emittingBits 15) 2)) = some .done := by decide

/-- X3, X6, X7 and X9: the errors and their priority. -/
theorem test_encode_next_errors :
    wordOf (exec (.encodeNext frame7D0A 17) (stateAt .awaitingReset 17)) = some 0x80000000#32 ∧
    wordOf (exec (.encodeNext frame7D0A 0) (stateAt .emittingGap 17)) = some 0xC0000000#32 ∧
    wordOf (exec (.encodeNext frame7D0A 0) (stateAt .done 17)) = some 0x80000000#32 ∧
    wordOf (exec (.encodeNext frame7D0A (-1)) (stateAt (.emittingBits 3) 17)) = some 0xC0000000#32 := by decide

/-- Section 3.1: `SEQ(0x82C6)`, word by word. -/
theorem test_symbol_sequence :
    (symbolSeq REF80 0x82C6#16).map Symbol.word =
      [0x003C0014#32, 0x001E0032#32, 0x001E0032#32, 0x001E0032#32, 0x001E0032#32, 0x001E0032#32] ++
      [0x003C0014#32, 0x001E0032#32, 0x003C0014#32, 0x003C0014#32, 0x001E0032#32, 0x001E0032#32] ++
      [0x001E0032#32, 0x003C0014#32, 0x003C0014#32, 0x001E0032#32, 0x000004B0#32] := by decide

/-- 00_scope.md R8 (e) and R9: 24 MHz at 300000 bits/s gives the tick counts of REF80. -/
theorem test_derive_gives_ref80 : Straps.derive 24000000 300000 1200#16 false = REF80 := by decide

/-- 30_encoding.md R77: the textual form. -/
theorem test_operation_text :
    operationText (.buildFrame 1046 true true) = "BUILD 1046, 1, 1" ∧
    channelLine 1 (.encodeNext 5#16 16) = "ch1: ENC 5, 16" := ⟨rfl, rfl⟩

/-- The first step after reset runs the request placed for it, and a reserved one is refused. -/
theorem test_first_step_after_reset :
    phaseOf (step (State.reset.withFetchWord 32 0x80000000)) = some (.emittingBits 0) ∧
    wordOf (step (State.reset.withFetchWord 32 0x400003E8)) = some 0x00007D0A#32 ∧
    wordOf (step (State.reset.withFetchWord 32 0xC0117D0A)) = some 0x80000000#32 ∧
    step (State.reset.withFetchWord 32 0x00000000) = .refused .reservedRequest := by
  refine ⟨?_, ?_, ?_, rfl⟩ <;> decide

/-- P5: what one channel does leaves the other (60_exceptions.md R157). -/
theorem test_two_channels :
    (match step (twoChannels [.request 0 0xC0047D0A#32]) with
      | .next t => t.channels.map Channel.phase
      | _ => []) = [.emittingBits 4, .emittingGap] := by decide

-- Every obligation with hypotheses: a concrete case that meets them, clause by clause

theorem witness_EncodeThenDecodeIsIdentity :
    Instr.wf (.buildFrame 65535 true false) = true ∧ Instr.wf (.encodeNext 0x8001#16 255) = true := by decide

theorem witness_DecodeThenEncodeKeepsDefinedBits :
    decode 0xFFFF7D0A#32 = .ok (.encodeNext frame7D0A 255) := rfl

theorem witness_ReservedBitsAreIgnored :
    decode 0x7FFC03E8#32 = .ok (.buildFrame 1000 false false) ∧
    0x7FFC03E8#32 &&& (Instr.buildFrame 1000 false false).definedBits =
      0x400003E8#32 &&& (Instr.buildFrame 1000 false false).definedBits ∧
    0x7FFC03E8#32 ≠ 0x400003E8#32 := by
  refine ⟨rfl, ?_, ?_⟩ <;> decide

/-- One word for each select code. -/
theorem witness_DecodeFollowsTheOperationMap :
    decode 0x80000001#32 = .ok .reset ∧ 0x3FFFFFFF#32 &&& tableMask = 0#32 ∧
    0x7FFFFFFF#32 &&& tableMask = 0x40000000#32 ∧ 0xBFFFFFFF#32 &&& tableMask = 0x80000000#32 ∧
    0xFFFFFFFF#32 &&& tableMask = 0xC0000000#32 := by
  refine ⟨rfl, ?_, ?_, ?_, ?_⟩ <;> decide

theorem witness_ResponseWordFields :
    (Response.encoded (symbolSeq REF80 frame7D0A) true).symbols.length ≤ 17 := by decide

/-- The bounds of the range. -/
theorem witness_BuildFrameAnswersTheFrame :
    (0 : Int) ≤ 0 ∧ (0 : Int) ≤ 2047 ∧ (2047 : Int) ≤ 2047 := by decide

/-- The two sides of the range; an operation that answers with the error; a word at the border. -/
theorem witness_InvalidCommandExactlyOutOfRange :
    ((-1 : Int) < 0 ∨ (2047 : Int) < -1) ∧ ((2048 : Int) < 0 ∨ (2047 : Int) < 2048) ∧
    (∃ t, exec (.buildFrame 2048 true false) (stateAt .done 1) = .next t ∧
      t.cur.rsp = some (.error .invalidCommand)) ∧
    decode 0x40000800#32 = .ok (.buildFrame 2048 false false) ∧
    decode 0x400007FF#32 = .ok (.buildFrame 2047 false false) :=
  ⟨by decide, by decide, ⟨_, rfl, rfl⟩, rfl, rfl⟩

theorem witness_BuiltFrameNibblesXor : (0 : Int) ≤ 2047 ∧ (2047 : Int) ≤ 2047 := by decide

theorem witness_BuildFrameIsInjective : buildFrame 2047 true false = .ok 0xFFFF#16 := rfl

/-- The largest and the smallest room, at the first bit and at the gap, in a buffer that just suffices. -/
theorem witness_EncodeNextIsOneTransition :
    ((stateAt (.emittingBits 0) 17).cur.phase.emittedCount = some 0 ∧ 0 < 17 ∧ (1 : Int) ≤ 255 ∧
      17 = min (255 : Int).toNat (17 - 0) ∧ 17 ≤ (stateAt (.emittingBits 0) 17).cur.cap) ∧
    ((stateAt .emittingGap 1).cur.phase.emittedCount = some 16 ∧ 16 < 17 ∧ (1 : Int) ≤ 1 ∧
      1 = min (1 : Int).toNat (17 - 16) ∧ 1 ≤ (stateAt .emittingGap 1).cur.cap) := by decide

/-- A call that stores, with a slot it writes and one it leaves; a call that raises; the other operations. -/
theorem witness_SymbufChangesOnlyInTheSlotsWritten :
    ((∃ t, exec (.encodeNext frame7D0A 2) (stateAt (.emittingBits 15) 2) = .next t) ∧
      encodeError (.emittingBits 15) 2 = none ∧ 1 < emittedBy (.emittingBits 15) 2 ∧
      emittedBy (.emittingBits 15) 2 ≤ 2) ∧
    ((∃ t, exec (.encodeNext frame7D0A 0) (stateAt .emittingGap 1) = .next t) ∧
      encodeError .emittingGap 0 ≠ none) ∧
    (∃ t, exec .reset (stateAt .done 1) = .next t) :=
  ⟨⟨⟨_, rfl⟩, by decide, by decide, by decide⟩, ⟨⟨_, rfl⟩, by decide⟩, ⟨_, rfl⟩⟩

/-- Each of the three operations, and one that raises. -/
theorem witness_OperationsChangeOnlyTheirEffect :
    (∃ t, exec (.buildFrame 0 false true) (stateAt .done 1) = .next t) ∧
    (∃ t, exec .reset (stateAt .done 1) = .next t) ∧
    (∃ t, exec (.encodeNext frame7D0A 1) (stateAt .emittingGap 1) = .next t) ∧
    (∃ t, exec (.encodeNext frame7D0A 1) (stateAt .done 1) = .next t ∧
      t.cur.rsp = some (.error .encoderExhausted)) :=
  ⟨⟨_, rfl⟩, ⟨_, rfl⟩, ⟨_, rfl⟩, ⟨_, rfl, rfl⟩⟩

/-- A buffer one slot short stops the machine, one that just suffices does not. -/
theorem witness_EncodeNextStopsExactlyOnOverrun :
    exec (.encodeNext frame7D0A 2) (stateAt (.emittingBits 15) 1) = .fault .symbufOverrun ∧
    encodeError (.emittingBits 15) 2 = none ∧ 1 < emittedBy (.emittingBits 15) 2 ∧
    (∃ t, exec (.encodeNext frame7D0A 2) (stateAt (.emittingBits 15) 2) = .next t) :=
  ⟨rfl, by decide, by decide, ⟨_, rfl⟩⟩

theorem witness_DoneStaysExhaustedUntilReset :
    (stateAt .done 1).cur.phase = .done ∧
    Instr.reset ∉ [Instr.encodeNext frame7D0A 17, .buildFrame 1 false false, .encodeNext frame7D0A 0] := by decide

/-- Both phases that raise it, and a call that is answered by it. -/
theorem witness_EncoderExhaustedExactlyWithoutReset :
    (stateAt .awaitingReset 1).cur.phase = .awaitingReset ∧ (stateAt .done 1).cur.phase = .done ∧
    (∃ t, exec (.encodeNext frame7D0A 0) (stateAt .awaitingReset 1) = .next t ∧
      t.cur.rsp = some (.error .encoderExhausted)) :=
  ⟨rfl, rfl, ⟨_, rfl, rfl⟩⟩

/-- The largest room refused, in both phases; a call that is answered by it; words on both sides of the border. -/
theorem witness_BufferTooSmallExactlyWithoutRoom :
    (stateAt (.emittingBits 15) 1).cur.phase.inProgress = true ∧
    (stateAt .emittingGap 1).cur.phase.inProgress = true ∧ (0 : Int) < 1 ∧
    (∃ t, exec (.encodeNext frame7D0A 0) (stateAt .emittingGap 1) = .next t ∧
      t.cur.rsp = some (.error .bufferTooSmall)) ∧
    decode 0xC0007D0A#32 = .ok (.encodeNext frame7D0A 0) ∧
    decode 0xC0017D0A#32 = .ok (.encodeNext frame7D0A 1) :=
  ⟨rfl, rfl, by decide, ⟨_, rfl, rfl⟩, rfl, rfl⟩

theorem witness_SuccessfulCallMakesProgress :
    ∃ t, exec (.encodeNext frame7D0A 1) (stateAt .emittingGap 1) = .next t ∧
      t.cur.rsp = some (.encoded [gapSymbol REF80] true) := ⟨_, rfl, rfl⟩

theorem witness_LargeRoomActsAsWhatIsLeft :
    (stateAt (.emittingBits 0) 17).cur.phase.emittedCount = some 0 ∧ ((17 - 0 : Nat) : Int) ≤ 17 ∧
    (stateAt .emittingGap 17).cur.phase.emittedCount = some 16 ∧ ((17 - 16 : Nat) : Int) ≤ 255 := by decide

/-- A successful call that ends the transmission, one that does not, and another operation. -/
theorem witness_DoneIsAFunctionOfTheStateAfter :
    (∃ t, exec (.encodeNext frame7D0A 1) (stateAt .emittingGap 1) = .next t ∧
      t.cur.rsp = some (.encoded [gapSymbol REF80] true)) ∧
    (∃ t, exec (.encodeNext frame7D0A 1) (stateAt (.emittingBits 15) 1) = .next t ∧
      t.cur.rsp = some (.encoded [zeroSymbol REF80] false)) ∧
    (∃ t, exec .reset (stateAt .done 1) = .next t ∧ t.cur.rsp = some .nothing) :=
  ⟨⟨_, rfl, rfl⟩, ⟨_, rfl, rfl⟩, ⟨_, rfl, rfl⟩⟩

/-- A call over the last bit and the gap, from an armed phase with legal straps. -/
theorem witness_BitIndexCountsBitSymbols :
    (stateAt (.emittingBits 15) 2).cur.straps.Legal ∧ (stateAt (.emittingBits 15) 2).cur.phase.armed = true ∧
    (∃ t, exec (.encodeNext frame7D0A 2) (stateAt (.emittingBits 15) 2) = .next t) :=
  ⟨by decide, rfl, ⟨_, rfl⟩⟩

/-- The call that emits the gap, with legal straps; a RESET after it. -/
theorem witness_GapEmittedIsSetByTheGapSymbol :
    (stateAt .emittingGap 1).cur.straps.Legal ∧
    (∃ t, exec (.encodeNext frame7D0A 1) (stateAt .emittingGap 1) = .next t ∧ t.cur.phase.gapEmitted = true) ∧
    (∃ t, exec .reset (stateAt .done 1) = .next t ∧ t.cur.phase.gapEmitted = false) :=
  ⟨by decide, ⟨_, rfl, rfl⟩, ⟨_, rfl, rfl⟩⟩

/-- Two instances with different buffers, two frames that agree on the one bit covered; and at the gap, where none is. -/
theorem witness_SymbolsDependOnlyOnTheBitsCovered :
    (stateAt (.emittingBits 0) 1).cur.phase.emittedCount = some 0 ∧
    (∀ k, 0 ≤ k → k < 0 + emittedBy (.emittingBits 0) 1 → k < 16 → frameBit 0x8000#16 k = frameBit 0xFFFF#16 k) ∧
    (∃ t, exec (.encodeNext 0x8000#16 1) (stateAt (.emittingBits 0) 1) = .next t) ∧
    (∃ t, exec (.encodeNext 0xFFFF#16 1) (stateAt (.emittingBits 0) 17) = .next t) ∧
    (stateAt .emittingGap 1).cur.phase.emittedCount = some 16 := by
  refine ⟨rfl, ?_, ⟨_, rfl⟩, ⟨_, rfl⟩, rfl⟩
  intro k _ hk _
  have h : emittedBy (.emittingBits 0) 1 = 1 := by decide
  obtain rfl : k = 0 := by omega
  decide

/-- Sizes 3, 5, 7 and 9 of vector E6, and a drain in one call, in buffers that just suffice. -/
theorem witness_AnyPartitionDrainsTheFrame :
    ((stateAt (.emittingBits 0) 9).cur.phase = .emittingBits 0 ∧
      (∀ m ∈ [3, 5, 7] ++ [(9 : Int)], 1 ≤ m ∧ m ≤ ((stateAt (.emittingBits 0) 9).cur.cap : Int)) ∧
      ([3, 5, 7] : List Int).sum < 17 ∧ 17 ≤ ([3, 5, 7] : List Int).sum + 9) ∧
    ((∀ m ∈ [] ++ [(17 : Int)], 1 ≤ m ∧ m ≤ ((stateAt (.emittingBits 0) 17).cur.cap : Int)) ∧
      ([] : List Int).sum < 17 ∧ 17 ≤ ([] : List Int).sum + 17) := by decide

/-- One call of 17 against 16 and 1. -/
theorem witness_SplitPointsDoNotAffectTheOutput :
    ((∀ m ∈ [] ++ [(17 : Int)], 1 ≤ m) ∧ 17 ≤ ([] : List Int).sum + 17 ∧ ([] : List Int).sum < 17) ∧
    ((∀ m ∈ [16] ++ [(1 : Int)], 1 ≤ m) ∧ 17 ≤ ([16] : List Int).sum + 1 ∧ ([16] : List Int).sum < 17) ∧
    (∃ t rs, issue (encodeCalls frame7D0A ([] ++ [17])) (stateAt (.emittingBits 0) 17) = .next (t, rs)) ∧
    (∃ t rs, issue (encodeCalls frame7D0A ([16] ++ [1])) (stateAt (.emittingBits 0) 17) = .next (t, rs)) :=
  ⟨by decide, by decide, ⟨_, _, rfl⟩, ⟨_, _, rfl⟩⟩

theorem witness_EveryCallButTheLastEmitsItsSize :
    (∀ m ∈ [16] ++ [(1 : Int)], 1 ≤ m) ∧ ([16] : List Int).sum < 17 ∧ 17 ≤ ([16] : List Int).sum + 1 ∧
    (∃ t rs, issue (encodeCalls frame7D0A ([16] ++ [1])) (stateAt (.emittingBits 0) 17) = .next (t, rs)) :=
  ⟨by decide, by decide, by decide, ⟨_, _, rfl⟩⟩

/-- A transmission abandoned after five symbols (program P3), then a drain in two calls. -/
theorem witness_ResetErasesTheEarlierTransmission :
    (∃ u before, issue [.reset, .encodeNext 0x82D8#16 5] (stateAt .awaitingReset 16) = .next (u, before)) ∧
    (∀ m ∈ [16] ++ [(1 : Int)], 1 ≤ m ∧ m ≤ ((stateAt .awaitingReset 16).cur.cap : Int)) ∧
    ([16] : List Int).sum < 17 ∧ 17 ≤ ([16] : List Int).sum + 1 :=
  ⟨⟨_, _, rfl⟩, by decide, by decide, by decide⟩

/-- Sizes 16 and 0, in a transmission and after it, within the buffer; a drain that answers. -/
theorem witness_DrainStopsAtDoneOrTheFirstError :
    (∃ t rs, drain frame7D0A 16 (stateAt (.emittingBits 0) 16) = .next (t, rs) ∧
      rs.map (fun r => (r.symbols.length, r.doneBit)) = [(16, false), (1, true)]) ∧
    encodeError (.emittingBits 0) 0 = some .bufferTooSmall ∧ encodeError .done 16 = some .encoderExhausted ∧
    (16 : Int) ≤ ((stateAt (.emittingBits 0) 16).cur.cap : Int) :=
  ⟨⟨_, _, rfl, by decide⟩, by decide, by decide, by decide⟩

/-- The bounds of the command, of the size and of the buffer. -/
theorem witness_SubmitSendsOneWholeFrame :
    (0 : Int) ≤ 2047 ∧ (2047 : Int) ≤ 2047 ∧ (1 : Int) ≤ 17 ∧ (17 : Int) ≤ ((stateAt .done 17).cur.cap : Int) ∧
    ((2048 : Int) < 0 ∨ (2047 : Int) < 2048) ∧ ((-1 : Int) < 0 ∨ (2047 : Int) < -1) := by decide

/-- Sixteen symbols handed over, the gap still owed; and a whole drain. -/
theorem witness_TransmissionInProgressUntilItEnds :
    (∃ t rs, issue [.encodeNext frame7D0A 16, .buildFrame 1 false false] (stateAt (.emittingBits 0) 16) =
        .next (t, rs) ∧
      transmissionEnd (eventsOf [.encodeNext frame7D0A 16, .buildFrame 1 false false] rs) =
        .inProgress) ∧
    ((∀ m ∈ [16] ++ [(1 : Int)], 1 ≤ m) ∧ ([16] : List Int).sum < 17 ∧ 17 ≤ ([16] : List Int).sum + 1 ∧
      ∃ t rs, issue (encodeCalls frame7D0A ([16] ++ [1])) (stateAt (.emittingBits 0) 16) = .next (t, rs)) :=
  ⟨⟨_, _, rfl, rfl⟩, by decide, by decide, by decide, ⟨_, _, rfl⟩⟩

/-- A transmission that has handed over 16 symbols while another channel is clocked, and its hardware reset, between
operations and in the middle of the last call. -/
theorem witness_HardwareResetCancelsTheTransmission :
    (twoChannels []).channels[0]? = some (chanAt (.emittingBits 0) 17) ∧
    (∃ t es, runInputs 0 [.request 0 0xC0107D0A#32, .clock 1] (twoChannels []) = .next (t, es) ∧
      transmissionEnd es = .inProgress ∧ (es.flatMap TransmissionEvent.symbols).length = 16 ∧
      (∃ u, step { t with script := [.hwReset 0 true] } = .next u) ∧
      (∃ u, step { t with script := [.requestCut 0 0xC0017D0A#32 0] } = .next u)) :=
  ⟨by decide, ⟨_, _, rfl, by decide, by decide, ⟨_, rfl⟩, ⟨_, rfl⟩⟩⟩

theorem witness_SequenceLastsSixteenBitsAndTheGap :
    REF80.Legal ∧ (symbolSeq REF80 frame7D0A)[16]? = some (gapSymbol REF80) := by decide

/-- A 1 bit and the last, a 0 bit. -/
theorem witness_BitSymbolsKeepTheRatios :
    1 < 16 ∧ 15 < 16 ∧ REF80.Legal ∧ REF80.DefaultRatios ∧
    (symbolSeq REF80 frame7D0A)[1]? = some (oneSymbol REF80) ∧
    (symbolSeq REF80 frame7D0A)[15]? = some (zeroSymbol REF80) := by decide

/-- The shortest and the longest bit period. -/
theorem witness_DerivedStrapsAreLegal :
    3 ≤ roundDiv 3 1 ∧ roundDiv 3 1 ≤ 65535 ∧ 3 ≤ roundDiv 65535 1 ∧ roundDiv 65535 1 ≤ 65535 ∧
    1 ≤ (1#16).toNat := by decide

theorem witness_EveryStepKeepsTheInvariant :
    (withScript (chanAt (.emittingBits 0) 17) [.request 0 0xC0047D0A#32]).Inv ∧
    (∃ t, step (withScript (chanAt (.emittingBits 0) 17) [.request 0 0xC0047D0A#32]) = .next t) := by
  refine ⟨?_, ⟨_, rfl⟩⟩
  intro c hc
  obtain rfl : c = chanAt (.emittingBits 0) 17 := List.mem_singleton.mp hc
  exact ⟨by decide, by decide, by decide, fun h => (nomatch h), fun h => absurd rfl h, trivial⟩

/-- A request to the current channel, and one to another. -/
theorem witness_StepRunsTheDecodedOperation :
    (twoChannels [.request 1 0x80000000#32]).script = .request (twoChannels []).index 0x80000000#32 :: [] ∧
    (twoChannels [.request 1 0x80000000#32]).cur.hwRst = false ∧
    (twoChannels [.request 0 0x80000000#32]).channels[0]? = some (chanAt (.emittingBits 0) 17) ∧
    (chanAt (.emittingBits 0) 17).hwRst = false ∧ decode 0x80000000#32 = .ok .reset :=
  ⟨rfl, rfl, rfl, rfl, rfl⟩

/-- Words that decode and one that does not, at the bounds. -/
theorem witness_FetchedWordRunsNext :
    0xFFFFFFFF < 2 ^ 32 ∧ decodeTableWord 32 0xFFFFFFFF = some (.encodeNext 0xFFFF#16 255) ∧
    decodeTableWord 32 0x3FFFFFFF = none ∧ decodeTableWord 32 0 = none := by decide

theorem witness_ReservedRequestIsRefused :
    (twoChannels [.request 0 0x3FFFFFFF#32]).channels[0]? = some (chanAt (.emittingBits 0) 17) ∧
    (chanAt (.emittingBits 0) 17).hwRst = false ∧ opField 0x3FFFFFFF#32 = 0#2 := by decide

/-- Nothing more to do; the clock, an offer taken back, and a release, on a channel that is not the current one. -/
theorem witness_IdleInstanceChangesNothing :
    ((stateAt .done 1).script = [] ∧ (stateAt .done 1).cur.hwRst = false ∧ (stateAt .done 1).cur.req = none) ∧
    (twoChannels [.clock 0]).channels[0]? = some (chanAt (.emittingBits 0) 17) ∧
    (chanAt (.emittingBits 0) 17).hwRst = false ∧ (chanAt (.emittingBits 0) 17).req = none ∧
    (inReset [.withdraw 0]).channels[1]? = some (chanAt .done 1) ∧
    (inReset [.hwReset 0 false]).channels[0]? = some heldChannel ∧ heldChannel.req = none := by decide

/-- A held channel that is not the current one. -/
theorem witness_HardwareResetHoldsTheInstance :
    (inReset [.request 0 0x80000000#32]).script = .request 0 0x80000000#32 :: [] ∧
    (inReset [.request 0 0x80000000#32]).channels[0]? = some heldChannel ∧ heldChannel.hwRst = true := by decide

theorem witness_HardwareResetTakesTheResetState :
    (twoChannels [.hwReset 0 true]).script = .hwReset 0 true :: [] ∧
    (twoChannels [.hwReset 0 true]).channels[0]? = some (chanAt (.emittingBits 0) 17) := by decide

theorem witness_RequestWaitsForTheReleaseOfReset :
    ∃ s : State, s.cur.hwRst = true ∧ s.script = .request s.index 0x80000000#32 :: .hwReset s.index false :: [] :=
  ⟨withScript { chanAt .awaitingReset 1 with hwRst := true } [.request 0 0x80000000#32, .hwReset 0 false], rfl, rfl⟩

/-- An ENCODE_NEXT of four symbols cut after two of its writes, and its result when it is not cut. -/
theorem witness_HardwareResetCutsAnOperation :
    (withScript (chanAt (.emittingBits 0) 17) [.requestCut 0 0xC0047D0A#32 2]).cur.hwRst = false ∧
    decode 0xC0047D0A#32 = .ok (.encodeNext frame7D0A 4) ∧
    (∃ t, exec (.encodeNext frame7D0A 4) (withScript (chanAt (.emittingBits 0) 17) []) = .next t ∧
      t.cur.rsp = some (.encoded ((symbolSeq REF80 frame7D0A).take 4) false)) ∧
    (match step (withScript (chanAt (.emittingBits 0) 17) [.requestCut 0 0xC0047D0A#32 2]) with
      | .next u => u.cur.symbuf
      | _ => []) = [(0, 0x001E0032#32), (1, 0x003C0014#32)] :=
  ⟨rfl, rfl, ⟨_, rfl, rfl⟩, by decide⟩

theorem witness_HardwareResetCutsAWritelessOperation :
    (withScript (chanAt .done 17) [.requestCut 0 0x80000000#32 0]).cur.hwRst = false ∧
    decode 0x80000000#32 = .ok .reset ∧
    (∃ t, exec .reset (withScript (chanAt .done 17) []) = .next t ∧
      ∀ ss done, t.cur.rsp ≠ some (.encoded ss done)) :=
  ⟨rfl, rfl, ⟨_, rfl, by intro ss d h; cases h⟩⟩

/-- The three actions out of hardware reset and in it; a store into the last slot and one past it; the smallest buffer
and none. -/
theorem witness_CallerActionsChangeWhatTheyDrive :
    ((chanAt .done 4).hwRst = false → (chanAt .done 4).req = none) ∧ heldChannel.hwRst = true ∧
    (∃ t, step (withScript (chanAt .done 4) [.configure 0 REF80]) = .next t) ∧
    (∃ t, step (inReset [.configure 0 REF80]) = .next t) ∧
    (∃ t, step (withScript (chanAt .done 4) [.provideBuffer 0 1]) = .next t) ∧
    (∃ t, step (inReset [.provideBuffer 0 1]) = .next t) ∧
    step (inReset [.provideBuffer 0 0]) = .refused .emptyBuffer ∧
    (∃ t, step (withScript (chanAt .done 4) [.hostStore 0 3 0#32]) = .next t) ∧
    (∃ t, step (inReset [.hostStore 0 3 0#32]) = .next t) ∧
    step (withScript (chanAt .done 4) [.hostStore 0 4 0#32]) = .fault .symbufOverrun :=
  ⟨fun _ => rfl, rfl, ⟨_, rfl⟩, ⟨_, rfl⟩, ⟨_, rfl⟩, ⟨_, rfl⟩, rfl, ⟨_, rfl⟩, ⟨_, rfl⟩, rfl⟩

theorem witness_StepTouchesOneChannel :
    ∃ t, step (twoChannels [.request 0 0xC0047D0A#32]) = .next t := ⟨_, rfl⟩

/-- Two machines that agree on channel 0 only. -/
theorem witness_ChannelResultDependsOnThatChannelAlone :
    (twoChannels [.clock 0]).channels[0]? = some (chanAt (.emittingBits 0) 17) ∧
    (withScript (chanAt (.emittingBits 0) 17) [.clock 0]).channels[0]? = some (chanAt (.emittingBits 0) 17) := by
  decide

/-- Two channels, a step on each. -/
theorem witness_InterleavingOfChannelsIsIrrelevant :
    (Input.request 0 0xC0047D0A#32).channel ≠ (Input.request 1 0xC0017D0A#32).channel ∧
    (∃ t u, step (twoChannels [.request 0 0xC0047D0A#32, .request 1 0xC0017D0A#32]) = .next t ∧
      step t = .next u) := ⟨by decide, ⟨_, _, rfl, rfl⟩⟩

/-- The duties at their bounds: a RESET, a call that just fits, a command in range. -/
theorem witness_DutifulOperationSucceeds :
    Track.agrees { isOpen := true, frame := some frame7D0A } (chanAt (.emittingBits 15) 2) ∧
    Duty 2 { isOpen := true, frame := some frame7D0A } (.encodeNext frame7D0A 2) = true ∧
    Duty 2 { isOpen := true, frame := some frame7D0A } .reset = true ∧
    Duty 2 { isOpen := true, frame := some frame7D0A } (.buildFrame 2047 true true) = true :=
  ⟨rfl, by decide, by decide, by decide⟩

theorem witness_DutifulRunMeetsNoError :
    Track.agrees { isOpen := false, frame := none } (chanAt .done 17) ∧
    (∃ t rs, issue [.reset, .encodeNext frame7D0A 17] (stateAt .done 17) = .next (t, rs) ∧
      dutifulRun 17 { isOpen := false, frame := none }
        (([.reset, .encodeNext frame7D0A 17] : List Instr).zip rs) = true) := ⟨rfl, ⟨_, _, rfl, rfl⟩⟩

end Sys2Proof.Machine.Tests
end

namespace Sys2Proof.Machine

/-- `done` is the name of a phase (10_state.md R26). -/
theorem Phase.isDone_iff {p : Phase} : p.isDone = true ↔ p = .done := by
  cases p <;> simp [Phase.isDone]

/-- In an armed phase `done` can be read from the two registers (10_state.md R26); in `AwaitingReset` it cannot, their
values being free there (R32). -/
theorem Phase.isDone_eq_registers {p : Phase} (h : p.armed = true) :
    p.isDone = (decide (p.bitIndex = 16#5) && p.gapEmitted) := by
  cases p with
  | awaitingReset => cases h
  | emittingBits i => exact (Bool.and_false _).symm
  | emittingGap => rfl
  | done => rfl

/-- No emitted count leads back to `AwaitingReset`. -/
theorem Phase.armed_ofCount (e : Nat) : (Phase.ofCount e).armed = true := by
  unfold Phase.ofCount
  split
  · rfl
  · split <;> rfl

/-- Only a successful ENCODE_NEXT has a `done` bit to set. -/
theorem Response.doneBit_of_not_encoded {r : Response} (h : ∀ ss done, r ≠ .encoded ss done) : r.doneBit = false := by
  cases r with
  | encoded ss done => exact absurd rfl (h ss done)
  | frame f => exact Response.doneBit_frame f
  | nothing => exact Response.doneBit_nothing
  | error e => exact Response.doneBit_error e

/-- An operation that hands over symbols is an ENCODE_NEXT; it leaves an armed phase, and its `done` is that phase's. -/
theorem exec_encoded {i : Instr} {s t : State} {ss : List Symbol} {done : Bool} (h : exec i s = .next t)
    (hr : t.cur.rsp = some (.encoded ss done)) :
    (∃ frame m, i = .encodeNext frame m) ∧ t.cur.phase.armed = true ∧ done = t.cur.phase.isDone := by
  cases i with
  | buildFrame command tel b =>
    obtain ⟨r, hx, ⟨f, -, rfl⟩ | ⟨e, -, rfl⟩⟩ := execBuildFrame_cases command tel b s
    · cases hx.symm.trans h
      cases hr
    · cases hx.symm.trans h
      cases hr
  | reset =>
    cases (execReset_eq s).symm.trans h
    cases hr
  | encodeNext f m =>
    rcases execEncodeNext_cases f m s with ⟨err, -, hx⟩ | ⟨e, n, ss', -, -, -, -, -, -, -, -, ⟨-, hx⟩ | ⟨-, hx⟩⟩
    · cases hx.symm.trans h
      cases hr
    · cases hx.symm.trans h
    · cases hx.symm.trans h
      cases hr
      exact ⟨⟨f, m, rfl⟩, Phase.armed_ofCount _, rfl⟩

/-- Settles O22: a response with symbols is that of an ENCODE_NEXT, whose `done` is the phase's after it, and that phase
is armed, so that its registers say the same. -/
theorem doneIsAFunctionOfTheStateAfter : Obligations.DoneIsAFunctionOfTheStateAfter := by
  intro i s t r h hr
  refine ⟨?_, Response.doneBit_of_not_encoded⟩
  rintro ss done rfl
  obtain ⟨hi, harmed, rfl⟩ := exec_encoded h hr
  exact ⟨hi, Phase.isDone_eq_registers harmed, Phase.isDone_iff⟩

end Sys2Proof.Machine

namespace Sys2Proof.Machine

/-- BUILD_FRAME past its range check (40_frame_builder.md R90 steps 2 to 5). -/
theorem buildFrame_of_inRange {command : Int} (h0 : 0 ≤ command) (h1 : command ≤ 2047) (t b : Bool) :
    buildFrame command t b = .ok (payloadOf (BitVec.ofInt 11 command) t ++
      checksumOf (payloadOf (BitVec.ofInt 11 command) t) b) :=
  if_neg (by omega)

/-- The two parts a frame is concatenated from are read back at their places (30_encoding.md R60). -/
@[simp] theorem framePayload_append (p : BitVec 12) (k : BitVec 4) : framePayload (p ++ k) = p :=
  BitVec.extractLsb'_append_eq_left

@[simp] theorem frameChecksum_append (p : BitVec 12) (k : BitVec 4) : frameChecksum (p ++ k) = k :=
  BitVec.extractLsb'_append_eq_right

/-- The command field is the payload without its lowest bit, and that bit is the telemetry field. -/
@[simp] theorem frameCommand_append (p : BitVec 12) (k : BitVec 4) : frameCommand (p ++ k) = p.extractLsb' 1 11 :=
  BitVec.extractLsb'_append_eq_of_le (by decide)

@[simp] theorem frameTelemetry_append (p : BitVec 12) (k : BitVec 4) : frameTelemetry (p ++ k) = p.getLsbD 0 :=
  BitVec.getLsbD_append

/-- The upper 11 bits of the payload are the command (30_encoding.md R61). -/
theorem payloadOf_command (c : BitVec 11) (t : Bool) : (payloadOf c t).extractLsb' 1 11 = c :=
  BitVec.extractLsb'_append_eq_left

theorem payloadOf_telemetry (c : BitVec 11) (t : Bool) : (payloadOf c t).getLsbD 0 = t := by
  rw [payloadOf, BitVec.getLsbD_append]
  cases t <;> rfl

/-- The payload as a number: `2*command + telemetry` (30_encoding.md R61). -/
theorem payloadOf_toNat (c : BitVec 11) (t : Bool) : (payloadOf c t).toNat = 2 * c.toNat + t.toNat := by
  rw [payloadOf, BitVec.toNat_append, BitVec.toNat_ofBool, ← Nat.shiftLeft_add_eq_or_of_lt t.toNat_lt,
    Nat.shiftLeft_eq, pow_one, Nat.mul_comm]

/-- At width 4 the complement of the nibble XOR is `15 - x` (30_encoding.md R62). -/
theorem checksumOf_eq_sub (p : BitVec 12) (b : Bool) :
    checksumOf p b = if b then 15#4 - nibbleXor p else nibbleXor p := by
  rw [checksumOf, ← BitVec.allOnes_sub_eq_not]
  rfl

/-- A command in range is not wrapped by its 11-bit field (40_frame_builder.md R91). -/
theorem toNat_ofInt_of_inRange {command : Int} (h0 : 0 ≤ command) (h1 : command ≤ 2047) :
    ((BitVec.ofInt 11 command).toNat : Int) = command := by
  rw [BitVec.toNat_ofInt]
  omega

/-- BUILD_FRAME in range, over the machine: the frame is the response, and that is all that changes. -/
theorem execBuildFrame_of_ok {command : Int} {t b : Bool} {f : Frame} (h : buildFrame command t b = .ok f)
    (s : State) : exec (.buildFrame command t b) s =
      .next { s with cur := { s.cur with rsp := some (.frame f), strobes := [] } } := by
  obtain ⟨r, hx, ⟨g, hg, rfl⟩ | ⟨e, he, -⟩⟩ := execBuildFrame_cases command t b s
  · cases h.symm.trans hg
    exact hx
  · cases h.symm.trans he

/-- Settles O7: past the range check the frame is payload and checksum side by side; each field of the frame is read
back from those two, and the command's 11 bits hold it unwrapped. -/
theorem buildFrameAnswersTheFrame : Obligations.BuildFrameAnswersTheFrame := by
  intro s command telemetry bidirectional h0 h1
  have hcommand := toNat_ofInt_of_inRange h0 h1
  refine ⟨_, execBuildFrame_of_ok (buildFrame_of_inRange h0 h1 telemetry bidirectional) s, ?_, ?_, ?_, ?_⟩
  · rw [frameCommand_append, payloadOf_command, hcommand]
  · rw [frameTelemetry_append, payloadOf_telemetry]
  · rw [framePayload_append, payloadOf_toNat, Nat.cast_add, Nat.cast_mul, hcommand]
    cases telemetry <;> rfl
  · rw [framePayload_append, frameChecksum_append]
    exact checksumOf_eq_sub _ _

end Sys2Proof.Machine

namespace Sys2Proof.Machine

/-- Settles O12: the state RESET leaves does not depend on the phase it starts from, and its registers are those of
`EmittingBits(0)`. -/
theorem resetStartsTheFrame : Obligations.ResetStartsTheFrame := by
  have hword : opField 0x80000000#32 = 0b10#2 := by decide
  exact ⟨decode_reset hword, rfl, fun s => ⟨_, execReset_eq s, rfl, rfl, rfl, rfl⟩⟩

/-- In `Done` an operation other than RESET answers and stays in `Done`, and ENCODE_NEXT answers
`EncoderExhausted` (41_symbol_encoder.md R111 step 1, R117). -/
theorem exec_of_done {i : Instr} {s : State} (hs : s.cur.phase = .done) (hi : i ≠ .reset) :
    ∃ t r, exec i s = .next t ∧ t.cur.phase = .done ∧ t.cur.rsp = some r ∧
      ∀ frame m, i = .encodeNext frame m → r = .error .encoderExhausted := by
  cases i with
  | buildFrame command tel b =>
    obtain ⟨r, hx, -⟩ := execBuildFrame_cases command tel b s
    exact ⟨_, r, hx, hs, rfl, nofun⟩
  | reset => exact absurd rfl hi
  | encodeNext f m =>
    have herr : encodeError s.cur.phase m = some .encoderExhausted := by simp [encodeError, hs]
    rcases execEncodeNext_cases f m s with ⟨err, herr', hx⟩ | ⟨-, -, -, hnone, -⟩
    · cases herr.symm.trans herr'
      exact ⟨_, _, hx, hs, rfl, fun _ _ _ => rfl⟩
    · cases herr.symm.trans hnone

/-- Operations other than RESET issued in `Done` all answer, stay in `Done`, and every ENCODE_NEXT among them is
answered by `EncoderExhausted` (41_symbol_encoder.md R117). -/
theorem issue_of_done {is : List Instr} {s : State} (hs : s.cur.phase = .done) (his : .reset ∉ is) :
    ∃ (t : State) (rs : List Response), issue is s = .next (t, rs) ∧ t.cur.phase = .done ∧ rs.length = is.length ∧
      ∀ p ∈ is.zip rs, ∀ frame m, p.1 = .encodeNext frame m → p.2 = .error .encoderExhausted := by
  induction is generalizing s with
  | nil => exact ⟨s, [], issue_nil s, hs, rfl, nofun⟩
  | cons i rest ih =>
    rw [List.mem_cons, not_or] at his
    obtain ⟨hi, hrest⟩ := his
    obtain ⟨u, r, hx, hu, hrsp, hr⟩ := exec_of_done hs (Ne.symm hi)
    obtain ⟨t, rs, hissue, ht, hlen, hzip⟩ := ih hu hrest
    exact ⟨t, r :: rs, issue_cons hx hrsp hissue, ht, congrArg (· + 1) hlen, List.forall_mem_cons.mpr ⟨hr, hzip⟩⟩

/-- Settles O17: by induction on the operations `Done` is kept and every ENCODE_NEXT is exhausted; RESET and hardware
reset leave it. -/
theorem doneStaysExhaustedUntilReset : Obligations.DoneStaysExhaustedUntilReset :=
  ⟨fun _ _ hs his => issue_of_done hs his, fun s => ⟨_, execReset_eq s, rfl⟩, fun _ => rfl⟩

/-- `Done` is the armed state with all 17 symbols emitted. -/
theorem Phase.isDone_ofCount (e : Nat) : (Phase.ofCount e).isDone = decide (17 ≤ e) := by
  unfold Phase.ofCount
  split
  · exact (decide_eq_false (by omega)).symm
  · split
    · exact (decide_eq_false (by omega)).symm
    · exact (decide_eq_true (by omega)).symm

/-- A call with room, symbols left and a buffer that holds what it emits answers with the closed form
(41_symbol_encoder.md R113): the part of `execEncodeNext_cases` that neither raises nor overruns. -/
theorem execEncodeNext_of_fits {s : State} {f : Frame} {m : Int} {e n : Nat}
    (he : s.cur.phase.emittedCount = some e) (hlt : e < 17) (hm : 1 ≤ m) (hn : n = min m.toNat (17 - e))
    (hcap : n ≤ s.cur.cap) :
    ∃ t, exec (.encodeNext f m) s = .next t ∧
      t.cur.rsp = some (.encoded (((symbolSeq s.cur.straps f).drop e).take n) (decide (17 ≤ e + n))) ∧
      t.cur.phase = .ofCount (e + n) ∧ t.cur.straps = s.cur.straps ∧ t.cur.cap = s.cur.cap := by
  have hok : encodeError s.cur.phase m = none := encodeError_none.mpr ⟨⟨e, he, hlt⟩, hm⟩
  rcases execEncodeNext_cases f m s with
    ⟨err, herr, -⟩ | ⟨e', n', ss, -, he', -, -, hn', -, rfl, -, ⟨hover, -⟩ | ⟨-, hx⟩⟩
  · cases hok.symm.trans herr
  · cases he.symm.trans he'
    omega
  · cases he.symm.trans he'
    cases hn.trans hn'.symm
    rw [Phase.isDone_ofCount] at hx
    exact ⟨_, hx, rfl, rfl, rfl, rfl⟩

/-- The calls of a drain from any point of the transmission, `e` symbols emitted: together they hand over what is left
of `SEQ(frame)`, and only the last is `done` (41_symbol_encoder.md R114, R115). -/
theorem issue_encodeCalls_from {frame : Frame} {sizes : List Int} {last : Int} {s : State} {e : Nat}
    (he : s.cur.phase.emittedCount = some e) (hm : ∀ m ∈ sizes ++ [last], 1 ≤ m ∧ m ≤ (s.cur.cap : Int))
    (hlt : e + sizes.sum < 17) (hge : 17 ≤ e + sizes.sum + last) :
    ∃ (t : State) (rs : List Response), issue (encodeCalls frame (sizes ++ [last])) s = .next (t, rs) ∧
      rs.flatMap Response.symbols = (symbolSeq s.cur.straps frame).drop e ∧
      rs.map Response.doneBit = List.replicate sizes.length false ++ [true] ∧ t.cur.phase = .done := by
  induction sizes generalizing s e with
  | nil =>
    obtain ⟨h1, hcap⟩ := hm last (by simp)
    rw [List.sum_nil] at hlt hge
    obtain ⟨t, hx, hrsp, hphase, -, -⟩ :=
      execEncodeNext_of_fits (f := frame) (n := 17 - e) he (by omega) h1 (by omega) (by omega)
    have hall : e + (17 - e) = 17 := by omega
    refine ⟨t, _, issue_cons hx hrsp (issue_nil t), ?_, ?_, ?_⟩
    · simp [List.take_of_length_le]
    · simp [hall]
    · rw [hphase, hall]
      rfl
  | cons m rest ih =>
    obtain ⟨⟨h1, hcap⟩, hrest⟩ := List.forall_mem_cons.mp hm
    have hsum : 0 ≤ rest.sum := List.sum_nonneg fun x hx => by
      have := (hrest x (List.mem_append_left _ hx)).1
      omega
    rw [List.sum_cons] at hlt hge
    obtain ⟨u, hx, hrsp, hphase, hstraps, hcapU⟩ :=
      execEncodeNext_of_fits (f := frame) (n := m.toNat) he (by omega) h1 (by omega) (by omega)
    have hu : u.cur.phase.emittedCount = some (e + m.toNat) := by rw [hphase, emittedCount_ofCount (by omega)]
    obtain ⟨t, rs, hissue, hsyms, hdone, ht⟩ := ih hu (by rwa [hcapU]) (by omega) (by omega)
    have hnot : ¬ 17 ≤ e + m.toNat := by omega
    refine ⟨t, _ :: rs, issue_cons hx hrsp hissue, ?_, ?_, ht⟩
    · rw [List.flatMap_cons, hsyms, Response.symbols_encoded, hstraps, ← List.drop_drop, List.take_append_drop]
    · simp [hdone, hnot, List.replicate_succ]

/-- Settles O26: the drain from `EmittingBits(0)`, where what is left is all of `SEQ(frame)`. -/
theorem anyPartitionDrainsTheFrame : Obligations.AnyPartitionDrainsTheFrame := by
  intro s frame sizes last hs hm hlt hge
  have he : s.cur.phase.emittedCount = some 0 := by rw [hs]; rfl
  obtain ⟨t, rs, hissue, hsyms, hdone, ht⟩ :=
    issue_encodeCalls_from (frame := frame) he hm (by simpa using hlt) (by simpa using hge)
  rw [List.drop_zero] at hsyms
  exact ⟨t, rs, hissue, hsyms, by rw [hsyms, symbolSeq_length], hdone, ht⟩

end Sys2Proof.Machine

namespace Sys2Proof

/-- The select code of an encoded operation (30_encoding.md R74). -/
theorem opField_encode (i : Instr) : opField (encode i) = i.select := by
  cases i with
  | buildFrame command telemetry bidirectional => exact (Laws.SelectCode.buildFrame _ _ _).1
  | reset => exact Laws.SelectCode.reset.1
  | encodeNext frame maxSymbols => exact (Laws.SelectCode.encodeNext _ _).1

/-- The select code of a word that decodes is that of its operation. -/
theorem opField_of_decode {w : ReqWord} {i : Instr} (h : decode w = .ok i) : opField w = i.select := by
  rcases opField_cases w with ho | ho | ho | ho
  · cases (decode_reserved ho).symm.trans h
  · cases (decode_buildFrame ho).symm.trans h
    exact ho
  · cases (decode_reset ho).symm.trans h
    exact ho
  · cases (decode_encodeNext ho).symm.trans h
    exact ho

/-- The decoder rejects exactly the reserved select code (30_encoding.md R75 (a)). -/
theorem decode_error_iff {w : ReqWord} : decode w = .error .reservedSelect ↔ opField w = 0b00#2 := by
  refine ⟨fun h => ?_, decode_reserved⟩
  rcases opField_cases w with ho | ho | ho | ho
  · exact ho
  · cases (decode_buildFrame ho).symm.trans h
  · cases (decode_reset ho).symm.trans h
  · cases (decode_encodeNext ho).symm.trans h

/-- A non-negative operand that fits its field is not cut by it (30_encoding.md R76). -/
theorem toNat_ofInt_of_fits {n : Nat} {x : Int} (h0 : 0 ≤ x) (h1 : x < (2 : Int) ^ n) :
    ((BitVec.ofInt n x).toNat : Int) = x := by
  rw [BitVec.toNat_ofInt, Int.toNat_of_nonneg (Int.emod_nonneg _ (by positivity)), Nat.cast_pow, Nat.cast_ofNat,
    Int.emod_eq_of_lt h0 h1]

/-- Settles O1: the select code chooses the decoder's row, and each operand is read back from the field it was put
in, which well-formedness makes wide enough. -/
theorem encodeThenDecodeIsIdentity : Obligations.EncodeThenDecodeIsIdentity := by
  intro i hwf
  have hsel := opField_encode i
  cases i with
  | buildFrame command telemetry bidirectional =>
    simp only [Instr.wf, decide_eq_true_eq] at hwf
    have hcommand : (encode (.buildFrame command telemetry bidirectional)).extractLsb' 0 16 =
        BitVec.ofInt 16 command := BitVec.extractLsb'_append_eq_right
    rw [decode_buildFrame hsel, hcommand, toNat_ofInt_of_fits hwf.1 hwf.2,
      encode_buildFrame_bit _ _ _ 16, encode_buildFrame_bit _ _ _ 17]
    rfl
  | reset => exact decode_reset hsel
  | encodeNext frame maxSymbols =>
    simp only [Instr.wf, decide_eq_true_eq] at hwf
    have hframe : (encode (.encodeNext frame maxSymbols)).extractLsb' 0 16 = frame :=
      BitVec.extractLsb'_append_eq_right
    have hroom : (encode (.encodeNext frame maxSymbols)).extractLsb' 16 8 = BitVec.ofInt 8 maxSymbols := by
      ext k hk
      have hlow : ¬16 + k < 16 := by omega
      have hhigh : 16 + k < 24 := by omega
      rw [BitVec.getElem_extractLsb', encode_encodeNext_bit, if_neg hlow, if_pos hhigh, Nat.add_sub_cancel_left,
        BitVec.getLsbD_eq_getElem hk]
    rw [decode_encodeNext hsel, hframe, hroom, toNat_ofInt_of_fits hwf.1 hwf.2]

/-- A field read as a number and put back in a field of its width is the field. -/
theorem ofInt_toNat {n : Nat} (x : BitVec n) : BitVec.ofInt n (x.toNat : Int) = x := by
  rw [BitVec.ofInt_natCast, BitVec.ofNat_toNat, BitVec.setWidth_eq]

/-- The two highest bits of a request word are those of its select code. -/
theorem getLsbD_30_eq (w : ReqWord) : w.getLsbD 30 = (opField w).getLsbD 0 := by
  simp [opField]

theorem getLsbD_31_eq (w : ReqWord) : w.getLsbD 31 = (opField w).getLsbD 1 := by
  simp [opField]

/-- Every word with BUILD_FRAME's select code, its reserved bits cleared, is the encoding of its fields. -/
theorem encode_fields_buildFrame {w : ReqWord} (h : opField w = 0b01#2) :
    encode (.buildFrame ((w.extractLsb' 0 16).toNat : Int) (w.getLsbD 16) (w.getLsbD 17)) = w &&& 0xC003FFFF#32 := by
  apply BitVec.eq_of_getLsbD_eq
  intro k hk
  rw [encode_buildFrame_bit, BitVec.getLsbD_and, ofInt_toNat]
  have h30 := getLsbD_30_eq w
  have h31 := getLsbD_31_eq w
  rw [h] at h30 h31
  interval_cases k <;> simp_all

theorem encode_fields_encodeNext {w : ReqWord} (h : opField w = 0b11#2) :
    encode (.encodeNext (w.extractLsb' 0 16) ((w.extractLsb' 16 8).toNat : Int)) = w &&& 0xC0FFFFFF#32 := by
  apply BitVec.eq_of_getLsbD_eq
  intro k hk
  rw [encode_encodeNext_bit, BitVec.getLsbD_and, ofInt_toNat]
  have h30 := getLsbD_30_eq w
  have h31 := getLsbD_31_eq w
  rw [h] at h30 h31
  interval_cases k <;> simp_all

/-- The mask of the operation table keeps the select code and nothing else (spec/opcode_table.json). -/
theorem and_tableMask (w : ReqWord) : w &&& tableMask = opField w ++ 0#30 := by
  apply BitVec.eq_of_getLsbD_eq
  intro k hk
  rw [BitVec.getLsbD_and, BitVec.getLsbD_append, tableMask]
  interval_cases k <;> simp [opField]

/-- The row of the operation table a word matches is the one of its select code. -/
theorem and_tableMask_eq_iff {w : ReqWord} {o : BitVec 2} : w &&& tableMask = o ++ 0#30 ↔ opField w = o := by
  rw [and_tableMask]
  refine ⟨fun h => ?_, fun h => by rw [h]⟩
  have := congrArg (BitVec.extractLsb' 30 2) h
  rwa [BitVec.extractLsb'_append_eq_left, BitVec.extractLsb'_append_eq_left] at this

theorem tableMatch_eq (i : Instr) : i.tableMatch = i.select ++ 0#30 := by
  cases i with
  | buildFrame _ _ _ => exact (by decide : 0x40000000#32 = 0b01#2 ++ 0#30)
  | reset => rfl
  | encodeNext _ _ => exact (by decide : 0xC0000000#32 = 0b11#2 ++ 0#30)

/-- The defined bits of every format hold the select code. -/
theorem opField_and_definedBits (w : ReqWord) (i : Instr) : opField (w &&& i.definedBits) = opField w := by
  have hmask : i.definedBits &&& tableMask = tableMask := by
    cases i with
    | buildFrame _ _ _ => exact (by decide : 0xC003FFFF#32 &&& tableMask = tableMask)
    | reset => rfl
    | encodeNext _ _ => exact (by decide : 0xC0FFFFFF#32 &&& tableMask = tableMask)
  rw [← and_tableMask_eq_iff, BitVec.and_assoc, hmask, and_tableMask]

/-- The bits a select code's format defines, none for the reserved code (30_encoding.md R69 to R71). -/
def formatBits (o : BitVec 2) : ReqWord :=
  if o = 0b01#2 then 0xC003FFFF#32 else if o = 0b10#2 then 0xC0000000#32
  else if o = 0b11#2 then 0xC0FFFFFF#32 else 0#32

/-- The select code alone says which bits of the word are defined. -/
theorem definedBits_eq_formatBits (i : Instr) : i.definedBits = formatBits i.select := by
  cases i <;> rfl

/-- Settles O2: in each format the encoding of a word's fields is that word with its reserved bits cleared. -/
theorem decodeThenEncodeKeepsDefinedBits : Obligations.DecodeThenEncodeKeepsDefinedBits := by
  intro w i h
  refine ⟨decode_wf h, ?_⟩
  rcases opField_cases w with ho | ho | ho | ho
  · cases (decode_reserved ho).symm.trans h
  · cases (decode_buildFrame ho).symm.trans h
    exact encode_fields_buildFrame ho
  · cases (decode_reset ho).symm.trans h
    exact ((and_tableMask w).trans (by rw [ho]; rfl)).symm
  · cases (decode_encodeNext ho).symm.trans h
    exact encode_fields_encodeNext ho

/-- Settles O3: the select code is among the defined bits, so the other word decodes to an operation of the same format;
re-encoded, both operations are the common defined bits, and decoding brings each back. -/
theorem reservedBitsAreIgnored : Obligations.ReservedBitsAreIgnored := by
  intro w v i h hbits
  have hsel : opField v = i.select := by
    rw [← opField_of_decode h, ← opField_and_definedBits v i, ← hbits, opField_and_definedBits]
  cases hv : decode v with
  | error e =>
    cases e
    have h0 : opField w = 0b00#2 := by rw [opField_of_decode h, ← hsel, decode_error_iff.mp hv]
    cases (decode_reserved h0).symm.trans h
  | ok j =>
    have hformat : j.definedBits = i.definedBits := by
      rw [definedBits_eq_formatBits, definedBits_eq_formatBits, ← opField_of_decode hv, hsel]
    obtain ⟨hwfi, hi⟩ := decodeThenEncodeKeepsDefinedBits w i h
    obtain ⟨hwfj, hj⟩ := decodeThenEncodeKeepsDefinedBits v j hv
    have hsame : encode i = encode j := by rw [hi, hj, hformat, hbits]
    rw [← encodeThenDecodeIsIdentity i hwfi, hsame, encodeThenDecodeIsIdentity j hwfj]

/-- Settles O4: a word's row in the operation table is its select code, and so is the decoder's row. -/
theorem decodeFollowsTheOperationMap : Obligations.DecodeFollowsTheOperationMap := by
  intro w
  refine ⟨fun i h => ?_, ?_, fun h => ?_, fun h => ?_, fun h => ?_⟩
  · rw [and_tableMask, tableMatch_eq, opField_of_decode h]
  · exact decode_error_iff.trans (and_tableMask_eq_iff (o := 0b00#2)).symm
  · exact ⟨_, _, _, decode_buildFrame ((and_tableMask_eq_iff (o := 0b01#2)).mp h)⟩
  · exact decode_reset ((and_tableMask_eq_iff (o := 0b10#2)).mp h)
  · exact ⟨_, _, decode_encodeNext ((and_tableMask_eq_iff (o := 0b11#2)).mp h)⟩

/-- Settles O5: each word is evaluated by the decoder. -/
theorem specRequestWordsDecode : Obligations.SpecRequestWordsDecode :=
  ⟨rfl, rfl, rfl, rfl, rfl, rfl, rfl, rfl⟩

end Sys2Proof

namespace Sys2Proof.Machine

/-- A field that lies above the lower part of a word lies as far down in the upper part. -/
theorem field_above {v w start len : Nat} {hi : BitVec v} {lo : BitVec w} {x : BitVec len} (hw : w ≤ start)
    (h : hi.extractLsb' (start - w) len = x) : (hi ++ lo).extractLsb' start len = x :=
  (BitVec.extractLsb'_append_eq_of_le hw).trans h

/-- A response word put together from its fields (30_encoding.md R72). -/
def packResponse (err : BitVec 2) (done : Bool) (count : BitVec 5) (frame : Frame) : RspWord :=
  err ++ 0#5 ++ BitVec.ofBool done ++ 0#3 ++ count ++ frame

/-- Every field of a packed word is read back at its place, and the reserved bits are 0. -/
theorem packResponse_fields (err : BitVec 2) (done : Bool) (count : BitVec 5) (frame : Frame) :
    (packResponse err done count frame).extractLsb' 30 2 = err ∧
    (packResponse err done count frame).extractLsb' 25 5 = 0#5 ∧
    (packResponse err done count frame).extractLsb' 24 1 = BitVec.ofBool done ∧
    (packResponse err done count frame).extractLsb' 21 3 = 0#3 ∧
    (packResponse err done count frame).extractLsb' 16 5 = count ∧
    (packResponse err done count frame).extractLsb' 0 16 = frame := by
  refine ⟨field_above (w := 16) (by decide) ?_, field_above (w := 16) (by decide) ?_,
    field_above (w := 16) (by decide) ?_, field_above (w := 16) (by decide) ?_,
    field_above (w := 16) (by decide) BitVec.extractLsb'_append_eq_right, BitVec.extractLsb'_append_eq_right⟩
  · exact field_above (by decide) (field_above (by decide) (field_above (by decide) BitVec.extractLsb'_append_eq_left))
  · exact field_above (by decide) (field_above (by decide) (field_above (by decide) BitVec.extractLsb'_append_eq_right))
  · exact field_above (by decide) (field_above (by decide) BitVec.extractLsb'_append_eq_right)
  · exact field_above (by decide) BitVec.extractLsb'_append_eq_right

/-- A one-bit field as a bit. -/
theorem getLsbD_of_field {w : RspWord} {k : Nat} {b : Bool} (h : w.extractLsb' k 1 = BitVec.ofBool b) :
    w.getLsbD k = b := by
  have := congrArg (BitVec.getLsbD · 0) h
  simpa using this

theorem Response.word_frame (f : Frame) : (Response.frame f).word = packResponse 0#2 false 0#5 f := by
  simp [Response.word, packResponse, BitVec.setWidth_eq_append]

theorem Response.word_encoded (ss : List Symbol) (done : Bool) :
    (Response.encoded ss done).word = packResponse 0#2 done (BitVec.ofNat 5 ss.length) 0#16 := by
  simp [Response.word, packResponse]

/-- Settles O6: each kind of response has a word of its own layout, and each field is read back at its place. -/
theorem responseWordFields : Obligations.ResponseWordFields := by
  intro r hlen
  cases r with
  | frame f =>
    rw [Response.word_frame]
    obtain ⟨herr, hres, hdone, hres', hcount, hframe⟩ := packResponse_fields 0#2 false 0#5 f
    exact ⟨herr, hres, getLsbD_of_field hdone, hres', by rw [hcount]; rfl, hframe⟩
  | nothing => decide
  | encoded ss done =>
    rw [Response.word_encoded]
    obtain ⟨herr, hres, hdone, hres', hcount, hframe⟩ :=
      packResponse_fields 0#2 done (BitVec.ofNat 5 ss.length) 0#16
    refine ⟨herr, hres, getLsbD_of_field hdone, hres', ?_, hframe⟩
    rw [hcount, BitVec.toNat_ofNat]
    exact Nat.mod_eq_of_lt (Nat.lt_of_le_of_lt hlen (by decide))
  | error e => cases e <;> decide

end Sys2Proof.Machine

namespace Sys2Proof.Machine

-- What the operations raise

/-- BUILD_FRAME out of range, over the machine: the error is the response, and that is all that changes. -/
theorem execBuildFrame_of_error {command : Int} {t b : Bool} {e : ErrorKind} (h : buildFrame command t b = .error e)
    (s : State) : exec (.buildFrame command t b) s =
      .next { s with cur := { s.cur with rsp := some (.error e), strobes := [] } } := by
  obtain ⟨r, hx, ⟨g, hg, -⟩ | ⟨e', he, rfl⟩⟩ := execBuildFrame_cases command t b s
  · cases h.symm.trans hg
  · cases h.symm.trans he
    exact hx

/-- ENCODE_NEXT past neither of its tests: the error is the response, and that is all that changes. -/
theorem execEncodeNext_of_error {s : State} {f : Frame} {m : Int} {e : ErrorKind}
    (h : encodeError s.cur.phase m = some e) : exec (.encodeNext f m) s =
      .next { s with cur := { s.cur with rsp := some (.error e), strobes := [] } } := by
  rcases execEncodeNext_cases f m s with ⟨e', he, hx⟩ | ⟨-, -, -, hnone, -⟩
  · cases h.symm.trans he
    exact hx
  · cases h.symm.trans hnone

/-- What each of ENCODE_NEXT's two errors is raised by (60_exceptions.md R142, R143, R145). -/
theorem encodeError_some {p : Phase} {m : Int} {e : ErrorKind} : encodeError p m = some e ↔
    (e = .encoderExhausted ∧ (p = .awaitingReset ∨ p = .done)) ∨
    (e = .bufferTooSmall ∧ p.inProgress = true ∧ m < 1) := by
  cases p <;> simp [encodeError, Phase.inProgress, eq_comm, and_comm]

/-- An operation that raises is a BUILD_FRAME or an ENCODE_NEXT that fails its test, and changes nothing but the
response and the idle port (60_exceptions.md R146). -/
theorem exec_error {i : Instr} {s t : State} {e : ErrorKind} (h : exec i s = .next t)
    (hr : t.cur.rsp = some (.error e)) :
    t = { s with cur := { s.cur with rsp := some (.error e), strobes := [] } } ∧
    ((∃ command tel b, i = .buildFrame command tel b ∧ buildFrame command tel b = .error e) ∨
     (∃ f m, i = .encodeNext f m ∧ encodeError s.cur.phase m = some e)) := by
  cases i with
  | buildFrame command tel b =>
    obtain ⟨r, hx, ⟨f, -, rfl⟩ | ⟨e', he, rfl⟩⟩ := execBuildFrame_cases command tel b s
    · cases hx.symm.trans h
      cases hr
    · cases hx.symm.trans h
      cases hr
      exact ⟨rfl, .inl ⟨command, tel, b, rfl, he⟩⟩
  | reset =>
    cases (execReset_eq s).symm.trans h
    cases hr
  | encodeNext f m =>
    rcases execEncodeNext_cases f m s with ⟨e', he, hx⟩ | ⟨_, _, _, -, -, -, -, -, -, -, -, ⟨-, hx⟩ | ⟨-, hx⟩⟩
    · cases hx.symm.trans h
      cases hr
      exact ⟨rfl, .inr ⟨f, m, rfl, he⟩⟩
    · cases hx.symm.trans h
    · cases hx.symm.trans h
      cases hr

/-- A 16-bit command field is above 2047 exactly when its five highest bits are not all 0 (60_exceptions.md R141). -/
theorem command_outOfRange_iff (w : ReqWord) : 2047 < (w.extractLsb' 0 16).toNat ↔ w.extractLsb' 11 5 ≠ 0#5 := by
  rw [ne_eq, ← BitVec.toNat_inj, BitVec.extractLsb'_toNat, BitVec.extractLsb'_toNat, Nat.shiftRight_eq_div_pow,
    Nat.shiftRight_eq_div_pow, BitVec.toNat_ofNat]
  omega

/-- Settles O8: the range check is BUILD_FRAME's only test, ENCODE_NEXT raises other errors, and a command the port can
carry is out of range by the five highest bits of its field. -/
theorem invalidCommandExactlyOutOfRange : Obligations.InvalidCommandExactlyOutOfRange := by
  refine ⟨fun s command tel b hout => ?_, fun i s t h hr => ?_, fun w command tel b hd => ?_, rfl⟩
  · exact execBuildFrame_of_error (buildFrame_error_iff.mpr ⟨rfl, hout⟩) s
  · obtain ⟨-, ⟨command, tel, b, rfl, he⟩ | ⟨f, m, -, he⟩⟩ := exec_error h hr
    · exact ⟨command, tel, b, rfl, (buildFrame_error_iff.mp he).2⟩
    · rcases encodeError_some.mp he with ⟨he, -⟩ | ⟨he, -⟩ <;> cases he
  · cases (decode_buildFrame (opField_of_decode hd)).symm.trans hd
    rw [← command_outOfRange_iff]
    omega

/-- Settles O18: the state test comes first, and it alone raises `EncoderExhausted`. -/
theorem encoderExhaustedExactlyWithoutReset : Obligations.EncoderExhaustedExactlyWithoutReset := by
  refine ⟨fun s f m hp => execEncodeNext_of_error (encodeError_some.mpr (.inl ⟨rfl, hp⟩)), fun i s t h hr => ?_, rfl⟩
  obtain ⟨-, ⟨command, tel, b, -, he⟩ | ⟨f, m, rfl, he⟩⟩ := exec_error h hr
  · cases (buildFrame_error_iff.mp he).1
  · rcases encodeError_some.mp he with ⟨-, hp⟩ | ⟨he, -⟩
    · exact ⟨⟨f, m, rfl⟩, hp⟩
    · cases he

/-- Settles O19: the room test is reached in a transmission only, and the field of a request word is below 1 when it
is 0. -/
theorem bufferTooSmallExactlyWithoutRoom : Obligations.BufferTooSmallExactlyWithoutRoom := by
  refine ⟨fun s f m hp hm => execEncodeNext_of_error (encodeError_some.mpr (.inr ⟨rfl, hp, hm⟩)),
    fun i s t h hr => ?_, fun w f m hd => ?_, rfl⟩
  · obtain ⟨-, ⟨command, tel, b, -, he⟩ | ⟨f, m, rfl, he⟩⟩ := exec_error h hr
    · cases (buildFrame_error_iff.mp he).1
    · rcases encodeError_some.mp he with ⟨he, -⟩ | ⟨-, hp, hm⟩
      · cases he
      · exact ⟨hp, f, m, rfl, hm⟩
  · cases (decode_encodeNext (opField_of_decode hd)).symm.trans hd
    rw [← BitVec.toNat_inj, BitVec.toNat_ofNat]
    omega

/-- Settles O11: the operands alone choose between frame and error. -/
theorem buildFrameIsPure : Obligations.BuildFrameIsPure := by
  intro command tel b
  cases h : buildFrame command tel b with
  | error e => exact ⟨.error e, execBuildFrame_of_error h⟩
  | ok f => exact ⟨.frame f, execBuildFrame_of_ok h⟩

-- The frames BUILD_FRAME builds

/-- The nibbles of a frame are those of its payload and the checksum. -/
theorem frameNibbleXor_append (p : BitVec 12) (k : BitVec 4) : frameNibbleXor (p ++ k) = nibbleXor p ^^^ k := by
  have h12 : (p ++ k).extractLsb' 12 4 = p.extractLsb' 8 4 := field_above (by decide) rfl
  have h8 : (p ++ k).extractLsb' 8 4 = p.extractLsb' 4 4 := field_above (by decide) rfl
  have h4 : (p ++ k).extractLsb' 4 4 = p.extractLsb' 0 4 := field_above (by decide) rfl
  have h0 : (p ++ k).extractLsb' 0 4 = k := BitVec.extractLsb'_append_eq_right
  unfold frameNibbleXor nibbleXor
  rw [h12, h8, h4, h0]

/-- A value and its complement differ in every bit. -/
theorem xor_not_eq (x : BitVec 4) : x ^^^ ~~~x = 15#4 := by
  rw [← BitVec.not_xor_right, BitVec.xor_self]
  rfl

/-- Frames with one payload differ in their checksums only. -/
theorem xor_of_same_payload (p : BitVec 12) (k l : BitVec 4) : (p ++ k) ^^^ (p ++ l) = 0#12 ++ (k ^^^ l) := by
  rw [BitVec.xor_append, BitVec.xor_self]

/-- Settles O9: the checksum is the XOR of the payload's nibbles or its complement, so that with it the XOR is 0 or 15,
and the two frames share their payload. -/
theorem builtFrameNibblesXor : Obligations.BuiltFrameNibblesXor := by
  intro command tel h0 h1
  refine ⟨_, _, buildFrame_of_inRange h0 h1 tel false, buildFrame_of_inRange h0 h1 tel true, ?_, ?_, ?_⟩
  · exact (frameNibbleXor_append _ _).trans BitVec.xor_self
  · exact (frameNibbleXor_append _ _).trans (xor_not_eq _)
  · refine (xor_of_same_payload _ _ _).trans ?_
    exact (congrArg (0#12 ++ ·) (xor_not_eq _)).trans rfl

/-- What the frame of a successful BUILD_FRAME says of its operands (40_frame_builder.md R97). -/
theorem buildFrame_fields {command : Int} {tel b : Bool} {f : Frame} (h : buildFrame command tel b = .ok f) :
    ((frameCommand f).toNat : Int) = command ∧ frameTelemetry f = tel := by
  by_cases hr : command < 0 ∨ 2047 < command
  · cases h.symm.trans (buildFrame_error_iff.mpr ⟨rfl, hr⟩)
  · have h0 : 0 ≤ command := by omega
    have h1 : command ≤ 2047 := by omega
    cases (buildFrame_of_inRange h0 h1 tel b).symm.trans h
    rw [frameCommand_append, payloadOf_command, frameTelemetry_append, payloadOf_telemetry]
    exact ⟨toNat_ofInt_of_inRange h0 h1, rfl⟩

/-- Settles O10: command and telemetry flag are fields of the frame. -/
theorem buildFrameIsInjective : Obligations.BuildFrameIsInjective := by
  intro c d t u b f hc hd
  obtain ⟨hc, ht⟩ := buildFrame_fields hc
  obtain ⟨hd, hu⟩ := buildFrame_fields hd
  exact ⟨hc.symm.trans hd, ht.symm.trans hu⟩

end Sys2Proof.Machine

namespace Sys2Proof.Machine

-- ENCODE_NEXT in closed form

/-- The symbols of a call that starts with `e` symbols emitted and emits `n` (41_symbol_encoder.md R113). -/
def callSymbols (st : Straps) (frame : Frame) (e n : Nat) : List Symbol :=
  ((symbolSeq st frame).drop e).take n

/-- The channel after such a call (41_symbol_encoder.md R113). -/
def Channel.emitted (c : Channel) (frame : Frame) (e n : Nat) : Channel :=
  { c with
    phase := .ofCount (e + n)
    symbuf := c.symbuf.writeAll (strobesOf (callSymbols c.straps frame e n))
    strobes := strobesOf (callSymbols c.straps frame e n)
    rsp := some (.encoded (callSymbols c.straps frame e n) (decide (e + n = 17))) }

theorem callSymbols_length (st : Straps) (f : Frame) (e n : Nat) : (callSymbols st f e n).length = min n (17 - e) := by
  rw [callSymbols, List.length_take, List.length_drop, symbolSeq_length]

/-- The symbol a call stores in slot `k` (20_memory.md R42). -/
theorem callSymbols_get {st : Straps} {f : Frame} {e n k : Nat} (h : k < n) :
    (callSymbols st f e n)[k]? = (symbolSeq st f)[e + k]? := by
  rw [callSymbols, List.getElem?_take_of_lt h, List.getElem?_drop]

/-- Writing the strobes of up to 32 symbols fills the first slots and leaves the others (20_memory.md R42). -/
theorem read_writeAll_strobesOf (m : Memory) {ss : List Symbol} (h : ss.length ≤ 32) (k : Nat) :
    (m.writeAll (strobesOf ss)).read k = if k < ss.length then (ss[k]?).map Symbol.word else m.read k := by
  rw [← strobesFrom_zero, writeAll_strobesFrom (by omega), read_storeFrom]
  by_cases hk : k < ss.length
  · simp [hk]
  · simp [hk]

/-- How many symbols a call emits from an armed phase (41_symbol_encoder.md R113). -/
theorem emittedBy_eq {p : Phase} {e : Nat} (h : p.emittedCount = some e) (m : Int) :
    emittedBy p m = min m.toNat (17 - e) := by
  simp only [emittedBy, h]

/-- ENCODE_NEXT in a transmission and with room, as one equation: the closed form where the buffer holds the call's
symbols, else an overrun (41_symbol_encoder.md R113, 20_memory.md R48). -/
theorem execEncodeNext_eq {s : State} {m : Int} {e : Nat} (he : s.cur.phase.emittedCount = some e) (hlt : e < 17)
    (hm : 1 ≤ m) (f : Frame) : exec (.encodeNext f m) s =
      if emittedBy s.cur.phase m ≤ s.cur.cap then
        .next { s with cur := s.cur.emitted f e (emittedBy s.cur.phase m) }
      else .fault .symbufOverrun := by
  have hok : encodeError s.cur.phase m = none := encodeError_none.mpr ⟨⟨e, he, hlt⟩, hm⟩
  rcases execEncodeNext_cases f m s with
    ⟨err, herr, -⟩ | ⟨e', n, ss, -, he', -, -, hn, -, rfl, hlen, ⟨hover, hx⟩ | ⟨hfit, hx⟩⟩
  · cases hok.symm.trans herr
  · cases he.symm.trans he'
    rw [hx, if_neg (by rw [emittedBy_eq he]; omega)]
  · cases he.symm.trans he'
    obtain rfl : n = emittedBy s.cur.phase m := hn.trans (emittedBy_eq he m).symm
    have hdone : decide (17 ≤ e + emittedBy s.cur.phase m) = decide (e + emittedBy s.cur.phase m = 17) := by
      rw [emittedBy_eq he, decide_eq_decide]
      omega
    have hstore := writeAll_strobesFrom (m := s.cur.symbuf) (k := 0)
      (ss := callSymbols s.cur.straps f e (emittedBy s.cur.phase m)) (by rw [callSymbols_length]; omega)
    rw [strobesFrom_zero] at hstore hx
    rw [hx, if_pos hfit, Channel.emitted, hstore, Phase.isDone_ofCount, hdone]
    rfl

/-- Settles O13: the equation of ENCODE_NEXT where the buffer is large enough. -/
theorem encodeNextIsOneTransition : Obligations.EncodeNextIsOneTransition := by
  rintro s frame m e n ss he hlt hm rfl hcap rfl
  rw [← emittedBy_eq he] at hcap ⊢
  exact (execEncodeNext_eq he hlt hm frame).trans (if_pos hcap)

/-- What an ENCODE_NEXT that answers has done: raised an error, or emitted within its buffer. -/
theorem execEncodeNext_next {f : Frame} {m : Int} {s t : State} (h : exec (.encodeNext f m) s = .next t) :
    (∃ err, encodeError s.cur.phase m = some err ∧
      t = { s with cur := { s.cur with rsp := some (.error err), strobes := [] } }) ∨
    (∃ e, encodeError s.cur.phase m = none ∧ s.cur.phase.emittedCount = some e ∧ e < 17 ∧ 1 ≤ m ∧
      emittedBy s.cur.phase m ≤ s.cur.cap ∧ t = { s with cur := s.cur.emitted f e (emittedBy s.cur.phase m) }) := by
  cases herr : encodeError s.cur.phase m with
  | some err =>
    cases (execEncodeNext_of_error herr).symm.trans h
    exact .inl ⟨err, rfl, rfl⟩
  | none =>
    obtain ⟨⟨e, he, hlt⟩, hm⟩ := encodeError_none.mp herr
    rw [execEncodeNext_eq he hlt hm] at h
    split at h
    · rename_i hfit
      cases h
      exact .inr ⟨e, rfl, he, hlt, hm, hfit, rfl⟩
    · cases h

/-- What an ENCODE_NEXT that hands over symbols has done. -/
theorem execEncodeNext_encoded {f : Frame} {m : Int} {s t : State} {ss : List Symbol} {done : Bool}
    (h : exec (.encodeNext f m) s = .next t) (hr : t.cur.rsp = some (.encoded ss done)) :
    ∃ e, s.cur.phase.emittedCount = some e ∧ e < 17 ∧ 1 ≤ m ∧
      t = { s with cur := s.cur.emitted f e (emittedBy s.cur.phase m) } ∧
      ss = callSymbols s.cur.straps f e (emittedBy s.cur.phase m) ∧
      done = decide (e + emittedBy s.cur.phase m = 17) := by
  rcases execEncodeNext_next h with ⟨err, -, rfl⟩ | ⟨e, -, he, hlt, hm, -, rfl⟩
  · cases hr
  · cases hr
    exact ⟨e, he, hlt, hm, rfl, rfl, rfl⟩

/-- Settles O14: a call's strobes fill the slots of its symbols and no other; every other operation leaves SYMBUF. -/
theorem symbufChangesOnlyInTheSlotsWritten : Obligations.SymbufChangesOnlyInTheSlotsWritten := by
  refine fun i s t h => ⟨?_, fun hno => ?_⟩
  · rintro frame m rfl hok
    rcases execEncodeNext_next h with ⟨err, herr, -⟩ | ⟨e, -, he, hlt, -, -, rfl⟩
    · cases hok.symm.trans herr
    · have hlen : (callSymbols s.cur.straps frame e (emittedBy s.cur.phase m)).length = emittedBy s.cur.phase m := by
        rw [callSymbols_length, emittedBy_eq he]
        omega
      have hread := read_writeAll_strobesOf s.cur.symbuf
        (ss := callSymbols s.cur.straps frame e (emittedBy s.cur.phase m)) (by rw [callSymbols_length]; omega)
      rw [hlen] at hread
      refine ⟨e, he, fun k => ⟨fun hk => ?_, fun hk => ?_⟩⟩
      · exact (hread k).trans (by rw [if_pos hk, callSymbols_get hk])
      · exact (hread k).trans (if_neg (by omega))
  · cases i with
    | buildFrame command tel b =>
      obtain ⟨r, hx, -⟩ := execBuildFrame_cases command tel b s
      cases hx.symm.trans h
      exact ⟨rfl, rfl⟩
    | reset =>
      cases (execReset_eq s).symm.trans h
      exact ⟨rfl, rfl⟩
    | encodeNext f m =>
      rcases execEncodeNext_next h with ⟨err, -, rfl⟩ | ⟨_, hok, -⟩
      · exact ⟨rfl, rfl⟩
      · exact absurd hok (hno f m rfl)

/-- Settles O15: what every operation leaves is its frame; BUILD_FRAME, RESET and a raise change no more than their
equations say. -/
theorem operationsChangeOnlyTheirEffect : Obligations.OperationsChangeOnlyTheirEffect := by
  intro i s t h
  have hf := exec_frame h
  refine ⟨(congrArg State.before hf :), (congrArg State.after hf :), (congrArg State.script hf :),
    congrArg (·.cur.straps) hf, congrArg (·.cur.cap) hf, congrArg (·.cur.hwRst) hf, congrArg (·.cur.req) hf, ?_, ?_, ?_⟩
  · rintro command tel b rfl
    obtain ⟨r, hx, -⟩ := execBuildFrame_cases command tel b s
    cases hx.symm.trans h
    exact ⟨rfl, rfl⟩
  · rintro rfl
    cases (execReset_eq s).symm.trans h
    rfl
  · intro e hr
    obtain ⟨rfl, -⟩ := exec_error h hr
    exact ⟨rfl, rfl, rfl⟩

/-- Settles O16: past both error tests the equation of ENCODE_NEXT asks for room in the buffer and nothing else. -/
theorem encodeNextStopsExactlyOnOverrun : Obligations.EncodeNextStopsExactlyOnOverrun := by
  intro s f m
  cases herr : encodeError s.cur.phase m with
  | some err => simp [execEncodeNext_of_error herr]
  | none =>
    obtain ⟨⟨e, he, hlt⟩, hm⟩ := encodeError_none.mp herr
    rw [execEncodeNext_eq he hlt hm]
    by_cases hfit : emittedBy s.cur.phase m ≤ s.cur.cap
    · simp [hfit]
    · simp [hfit, Nat.lt_of_not_le hfit]

/-- Settles O20: a call with room and symbols left emits at least one, and its slots are numbered from 0. -/
theorem successfulCallMakesProgress : Obligations.SuccessfulCallMakesProgress := by
  intro s t f m ss done h hr
  obtain ⟨e, he, hlt, hm, rfl, rfl, -⟩ := execEncodeNext_encoded h hr
  have hlen := callSymbols_length s.cur.straps f e (emittedBy s.cur.phase m)
  rw [emittedBy_eq he] at hlen ⊢
  refine ⟨by omega, by omega, by omega, rfl, fun p hp => ?_⟩
  have hslot := strobesFrom_slots (k := 0) (by rw [hlen]; omega) (by rw [strobesFrom_zero]; exact hp)
  omega

/-- Settles O21: both calls emit what is left, and the equation of ENCODE_NEXT reads the room through that number
only. -/
theorem largeRoomActsAsWhatIsLeft : Obligations.LargeRoomActsAsWhatIsLeft := by
  intro s f m e he hlt hm
  have hsame : emittedBy s.cur.phase m = emittedBy s.cur.phase ((17 - e : Nat) : Int) := by
    rw [emittedBy_eq he, emittedBy_eq he]
    omega
  rw [execEncodeNext_eq he hlt (by omega), execEncodeNext_eq he hlt (by omega), hsame]

end Sys2Proof.Machine

namespace Sys2Proof.Machine

-- The registers of the Encoder State, and what a call's symbols depend on

theorem bitSymbol_isGap {st : Straps} (h : st.Legal) (b : Bool) : (bitSymbol st b).isGap = false := by
  obtain ⟨-, h1, -, h0, -, -⟩ := h
  have ne_zero : ∀ {x : Tick}, 1 ≤ x.toNat → (x == 0#16) = false := by
    intro x hx
    rw [beq_eq_false_iff_ne]
    rintro rfl
    simp at hx
  cases b with
  | false => exact ne_zero h0
  | true => exact ne_zero h1

theorem gapSymbol_isGap (st : Straps) : (gapSymbol st).isGap = true := rfl

/-- The 16 bit symbols of a transmission, without the gap (30_encoding.md R67). -/
def bitSymbols (st : Straps) (frame : Frame) : List Symbol :=
  (List.range 16).map (fun t => bitSymbol st (frameBit frame t))

theorem symbolSeq_eq (st : Straps) (f : Frame) : symbolSeq st f = bitSymbols st f ++ [gapSymbol st] := rfl

@[simp] theorem bitSymbols_length (st : Straps) (f : Frame) : (bitSymbols st f).length = 16 := by
  simp [bitSymbols]

/-- With legal straps no bit symbol is taken for the gap (30_encoding.md R66). -/
theorem isGap_of_mem_bitSymbols {st : Straps} {f : Frame} (h : st.Legal) {sy : Symbol} (hs : sy ∈ bitSymbols st f) :
    sy.isGap = false := by
  obtain ⟨t, -, rfl⟩ := List.mem_map.mp hs
  exact bitSymbol_isGap h _

/-- A call's symbols are some of the bit symbols, then the gap if there is room after the 16th bit. -/
theorem callSymbols_eq {e : Nat} (he : e ≤ 16) (st : Straps) (f : Frame) (n : Nat) : callSymbols st f e n =
    ((bitSymbols st f).drop e).take n ++ [gapSymbol st].take (n - (16 - e)) := by
  rw [callSymbols, symbolSeq_eq, List.drop_append_of_le_length (by simpa using he), List.take_append]
  simp

/-- How many of a call's symbols are bit symbols (10_state.md R23). -/
theorem callSymbols_bitCount {st : Straps} (h : st.Legal) (f : Frame) {e : Nat} (he : e ≤ 16) (n : Nat) :
    ((callSymbols st f e n).filter (fun sy => !sy.isGap)).length = min n (16 - e) := by
  have hbits : (((bitSymbols st f).drop e).take n).filter (fun sy => !sy.isGap) =
      ((bitSymbols st f).drop e).take n := by
    rw [List.filter_eq_self]
    intro sy hs
    simp [isGap_of_mem_bitSymbols h (List.mem_of_mem_drop (List.mem_of_mem_take hs))]
  have hgap : ([gapSymbol st].take (n - (16 - e))).filter (fun sy => !sy.isGap) = [] := by
    rw [List.filter_eq_nil_iff]
    intro sy hs
    rw [List.mem_singleton.mp (List.mem_of_mem_take hs), gapSymbol_isGap]
    decide
  rw [callSymbols_eq he, List.filter_append, hbits, hgap]
  simp

/-- A call emits the gap when it reaches the 17th symbol (10_state.md R24). -/
theorem callSymbols_any_isGap {st : Straps} (h : st.Legal) (f : Frame) {e : Nat} (he : e ≤ 16) (n : Nat) :
    (callSymbols st f e n).any Symbol.isGap = decide (17 ≤ e + n) := by
  have hbits : (((bitSymbols st f).drop e).take n).any Symbol.isGap = false := by
    rw [List.any_eq_false]
    intro sy hs
    simp [isGap_of_mem_bitSymbols h (List.mem_of_mem_drop (List.mem_of_mem_take hs))]
  rw [callSymbols_eq he, List.any_append, hbits, Bool.false_or]
  by_cases hn : 17 ≤ e + n
  · obtain ⟨d, hd⟩ : ∃ d, n - (16 - e) = d + 1 := ⟨n - (16 - e) - 1, by omega⟩
    simp [hn, hd, gapSymbol_isGap]
  · have hd : n - (16 - e) = 0 := by omega
    simp [hn, hd]

/-- `bit_index` of an armed phase, from the emitted count (10_state.md R23). -/
theorem bitIndex_of_emittedCount {p : Phase} {e : Nat} (h : p.emittedCount = some e) :
    p.bitIndex.toNat = min e 16 := by
  cases p with
  | awaitingReset => cases h
  | emittingBits i =>
    cases h
    rw [Phase.bitIndex, BitVec.toNat_ofNat]
    omega
  | emittingGap =>
    cases h
    rfl
  | done =>
    cases h
    rfl

/-- `gap_emitted` of an armed phase, from the emitted count (10_state.md R24). -/
theorem gapEmitted_of_emittedCount {p : Phase} {e : Nat} (h : p.emittedCount = some e) :
    p.gapEmitted = decide (17 ≤ e) := by
  cases p with
  | awaitingReset => cases h
  | emittingBits i =>
    cases h
    exact (decide_eq_false (by omega)).symm
  | emittingGap =>
    cases h
    rfl
  | done =>
    cases h
    rfl

/-- Exactly the armed phases have an emitted count. -/
theorem emittedCount_of_armed {p : Phase} (h : p.armed = true) : ∃ e, p.emittedCount = some e := by
  cases p with
  | awaitingReset => cases h
  | emittingBits i => exact ⟨_, rfl⟩
  | emittingGap => exact ⟨_, rfl⟩
  | done => exact ⟨_, rfl⟩

theorem bitIndex_le_of_armed {p : Phase} (h : p.armed = true) : p.bitIndex.toNat ≤ 16 := by
  obtain ⟨e, he⟩ := emittedCount_of_armed h
  rw [bitIndex_of_emittedCount he]
  exact Nat.min_le_right _ _

/-- The emitted count a call leaves. -/
theorem emittedCount_emitted {c : Channel} {e : Nat} (he : c.phase.emittedCount = some e) (f : Frame) (m : Int) :
    (c.emitted f e (emittedBy c.phase m)).phase.emittedCount = some (e + emittedBy c.phase m) := by
  have hle := emittedCount_le he
  refine emittedCount_ofCount ?_
  rw [emittedBy_eq he]
  omega

/-- Settles O23: a call's bit symbols are those up to the 16th, and `bit_index` is the emitted count up to there. -/
theorem bitIndexCountsBitSymbols : Obligations.BitIndexCountsBitSymbols := by
  intro i s t hlegal h
  cases i with
  | buildFrame command tel b =>
    obtain ⟨r, hx, -⟩ := execBuildFrame_cases command tel b s
    cases hx.symm.trans h
    exact ⟨rfl, bitIndex_le_of_armed⟩
  | reset =>
    cases (execReset_eq s).symm.trans h
    exact ⟨rfl, fun _ => bitIndex_le_of_armed rfl⟩
  | encodeNext f m =>
    rcases execEncodeNext_next h with ⟨err, -, rfl⟩ | ⟨e, -, he, hlt, -, -, rfl⟩
    · exact ⟨rfl, bitIndex_le_of_armed⟩
    · have hafter := bitIndex_of_emittedCount (emittedCount_emitted he f m)
      have hcount := callSymbols_bitCount hlegal f (e := e) (by omega) (emittedBy s.cur.phase m)
      refine ⟨hafter.trans ?_, fun _ => hafter.le.trans (Nat.min_le_right _ _)⟩
      refine Eq.trans ?_ (congrArg₂ (· + ·) (bitIndex_of_emittedCount he).symm hcount.symm)
      omega

/-- Settles O24: a call emits the gap exactly when it reaches the 17th symbol, and then `gap_emitted` is set. -/
theorem gapEmittedIsSetByTheGapSymbol : Obligations.GapEmittedIsSetByTheGapSymbol := by
  intro i s t hlegal h
  cases i with
  | buildFrame command tel b =>
    obtain ⟨r, hx, -⟩ := execBuildFrame_cases command tel b s
    cases hx.symm.trans h
    rfl
  | reset =>
    cases (execReset_eq s).symm.trans h
    rfl
  | encodeNext f m =>
    rcases execEncodeNext_next h with ⟨err, -, rfl⟩ | ⟨e, -, he, hlt, -, -, rfl⟩
    · rfl
    · have hbefore : s.cur.phase.gapEmitted = false :=
        (gapEmitted_of_emittedCount he).trans (decide_eq_false (by omega))
      have hgap := callSymbols_any_isGap hlegal f (e := e) (by omega) (emittedBy s.cur.phase m)
      refine (gapEmitted_of_emittedCount (emittedCount_emitted he f m)).trans (hgap.symm.trans ?_)
      exact (congrArg (· || _) hbefore).symm

/-- Frames that agree at the bits a call covers give it the same symbols (41_symbol_encoder.md R120). -/
theorem callSymbols_congr {f g : Frame} {e n : Nat} (st : Straps)
    (h : ∀ k, e ≤ k → k < e + n → k < 16 → frameBit f k = frameBit g k) :
    callSymbols st f e n = callSymbols st g e n := by
  apply List.ext_getElem?
  intro j
  by_cases hj : j < n
  · rw [callSymbols_get hj, callSymbols_get hj]
    by_cases hbit : e + j < 16
    · rw [symbolSeq_bit st f hbit, symbolSeq_bit st g hbit, h (e + j) (by omega) (by omega) hbit]
    · rw [symbolSeq_eq, symbolSeq_eq, List.getElem?_append_right (by simp; omega),
        List.getElem?_append_right (by simp; omega), bitSymbols_length, bitSymbols_length]
  · rw [List.getElem?_eq_none (by rw [callSymbols_length]; omega),
      List.getElem?_eq_none (by rw [callSymbols_length]; omega)]

/-- Settles O25: the equation of ENCODE_NEXT reads the phase, the straps and the symbols of the call, and those only the
bits covered. -/
theorem symbolsDependOnlyOnTheBitsCovered : Obligations.SymbolsDependOnlyOnTheBitsCovered := by
  intro s s' t t' f g m e he hphase hstraps hbits h h'
  rcases execEncodeNext_next h with ⟨err, herr, rfl⟩ | ⟨e₁, hok, he₁, -, -, -, rfl⟩
  · rw [execEncodeNext_of_error (hphase ▸ herr)] at h'
    cases h'
    exact ⟨rfl, hphase, rfl⟩
  · cases he.symm.trans he₁
    rcases execEncodeNext_next h' with ⟨err, herr, -⟩ | ⟨e₂, -, he₂, -, -, -, rfl⟩
    · cases (hphase ▸ hok).symm.trans herr
    · rw [hphase] at he₂ ⊢
      cases he.symm.trans he₂
      have hsyms := callSymbols_congr s.cur.straps hbits
      simp only [Channel.emitted, hstraps, hsyms, and_self]

end Sys2Proof.Machine

namespace Sys2Proof.Machine

-- Drains: what the calls of a partition do, one after the other

/-- A transmission has symbols left exactly where fewer than 17 are emitted. -/
theorem inProgress_iff {p : Phase} : p.inProgress = true ↔ ∃ e, p.emittedCount = some e ∧ e < 17 := by
  cases p with
  | awaitingReset => simp [Phase.inProgress, Phase.emittedCount]
  | emittingBits i =>
    have : i.val < 17 := by omega
    simp [Phase.inProgress, Phase.emittedCount, this]
  | emittingGap => simp [Phase.inProgress, Phase.emittedCount]
  | done => simp [Phase.inProgress, Phase.emittedCount]

/-- One call of a drain that answers: its symbols, its `done`, and the emitted count it leaves. -/
theorem execEncodeNext_call {f : Frame} {m : Int} {s t : State} {r : Response} {e : Nat}
    (h : exec (.encodeNext f m) s = .next t) (hr : t.cur.rsp = some r) (he : s.cur.phase.emittedCount = some e)
    (hlt : e < 17) (hm : 1 ≤ m) :
    r = .encoded (callSymbols s.cur.straps f e (min m.toNat (17 - e))) (decide (e + min m.toNat (17 - e) = 17)) ∧
      t.cur.phase.emittedCount = some (e + min m.toNat (17 - e)) ∧ t.cur.straps = s.cur.straps := by
  rcases execEncodeNext_next h with ⟨err, herr, -⟩ | ⟨e', -, he', -, -, -, rfl⟩
  · cases (encodeError_none.mpr ⟨⟨e, he, hlt⟩, hm⟩).symm.trans herr
  · cases he.symm.trans he'
    cases hr
    rw [← emittedBy_eq he]
    exact ⟨rfl, emittedCount_emitted he f m, rfl⟩

/-- What is left of `SEQ(frame)` is what a call emits and what is left after it. -/
theorem callSymbols_append_drop (st : Straps) (f : Frame) (e n : Nat) :
    callSymbols st f e n ++ (symbolSeq st f).drop (e + n) = (symbolSeq st f).drop e := by
  rw [callSymbols, ← List.drop_drop, List.take_append_drop]

/-- What the calls of a partition have done when all have answered, from `e` symbols emitted on: together they handed
over what was left of `SEQ(frame)`, each but the last its size, the last the rest, and only the last was `done`, which
completes the transmission (41_symbol_encoder.md R114, R128). -/
theorem issue_encodeCalls_next {frame : Frame} {sizes : List Int} {last : Int} {s t : State} {rs : List Response}
    {e : Nat} (he : s.cur.phase.emittedCount = some e) (hm : ∀ m ∈ sizes ++ [last], 1 ≤ m)
    (hlt : e + sizes.sum < 17) (hge : 17 ≤ e + sizes.sum + last)
    (h : issue (encodeCalls frame (sizes ++ [last])) s = .next (t, rs)) :
    rs.flatMap Response.symbols = (symbolSeq s.cur.straps frame).drop e ∧
    rs.map (fun r => (r.symbols.length : Int)) = sizes ++ [17 - (e + sizes.sum)] ∧
    transmissionEnd (eventsOf (encodeCalls frame (sizes ++ [last])) rs) = .complete ∧
    ∃ earlier ss, rs = earlier ++ [.encoded ss true] ∧ ∀ r ∈ earlier, ∃ ss, r = .encoded ss false := by
  induction sizes generalizing s e rs with
  | nil =>
    have h1 := hm last (by simp)
    rw [List.sum_nil] at hlt hge
    obtain ⟨u, r, rs', hx, hr, hnil, rfl⟩ := issue_cons_inv h
    cases hnil
    obtain ⟨rfl, -, -⟩ := execEncodeNext_call hx hr he (by omega) h1
    have hall : min last.toNat (17 - e) = 17 - e := by omega
    have hdone : e + (17 - e) = 17 := by omega
    rw [hall, hdone]
    refine ⟨?_, ?_, rfl, [], _, rfl, nofun⟩
    · have := callSymbols_append_drop s.cur.straps frame e (17 - e)
      rw [hdone, List.drop_eq_nil_of_le (by simp), List.append_nil] at this
      simp [this]
    · have hlen : ((17 - e : Nat) : Int) = 17 - e := by omega
      simp [callSymbols_length, hlen]
  | cons m rest ih =>
    obtain ⟨h1, hrest⟩ := List.forall_mem_cons.mp hm
    have hsum : 0 ≤ rest.sum := List.sum_nonneg fun x hx => by
      have := hrest x (List.mem_append_left _ hx)
      omega
    rw [List.sum_cons] at hlt hge
    obtain ⟨u, r, rs', hx, hr, hissue, rfl⟩ := issue_cons_inv h
    obtain ⟨rfl, hu, hstraps⟩ := execEncodeNext_call hx hr he (by omega) h1
    have hall : min m.toNat (17 - e) = m.toNat := by omega
    have hnot : decide (e + m.toNat = 17) = false := decide_eq_false (by omega)
    rw [hall] at hu
    rw [hall, hnot]
    obtain ⟨hsyms, hlens, hend, earlier, ss, rfl, hearlier⟩ := ih hu hrest (by omega) (by omega) hissue
    refine ⟨?_, ?_, hend, _ :: earlier, ss, rfl, List.forall_mem_cons.mpr ⟨⟨_, rfl⟩, hearlier⟩⟩
    · rw [List.flatMap_cons, hsyms, hstraps]
      exact callSymbols_append_drop _ _ _ _
    · rw [List.map_cons, hlens, Response.symbols_encoded, callSymbols_length, List.sum_cons, List.cons_append]
      congr 1
      · omega
      · congr 2
        omega

/-- The emitted count a drain of a whole frame starts from. -/
theorem emittedCount_of_armed_first {s : State} (h : s.cur.phase = .emittingBits 0) :
    s.cur.phase.emittedCount = some 0 := by
  rw [h]
  rfl

/-- Settles O27: both partitions hand over `SEQ(frame)`, which the straps and the frame determine. -/
theorem splitPointsDoNotAffectTheOutput : Obligations.SplitPointsDoNotAffectTheOutput := by
  intro s s' t t' frame sizes sizes' last last' rs rs' hs hs' hstraps hm hm' hge hge' hlt hlt' h h'
  obtain ⟨hsyms, -⟩ := issue_encodeCalls_next (emittedCount_of_armed_first hs) hm (by simpa using hlt)
    (by simpa using hge) h
  obtain ⟨hsyms', -⟩ := issue_encodeCalls_next (emittedCount_of_armed_first hs') hm' (by simpa using hlt')
    (by simpa using hge') h'
  rw [hsyms, hsyms', hstraps]
  exact ⟨rfl, rfl⟩

/-- Settles O28: the sizes of a drain from `EmittingBits(0)`. -/
theorem everyCallButTheLastEmitsItsSize : Obligations.EveryCallButTheLastEmitsItsSize := by
  intro s t frame sizes last rs hs hm hlt hge h
  obtain ⟨-, hlens, -⟩ := issue_encodeCalls_next (emittedCount_of_armed_first hs) hm (by simpa using hlt)
    (by simpa using hge) h
  simpa using hlens

/-- Settles O29: RESET leads to `EmittingBits(0)` from whatever the earlier operations left, and they left straps and
capacity. -/
theorem resetErasesTheEarlierTransmission : Obligations.ResetErasesTheEarlierTransmission := by
  intro s u earlier before frame sizes last h hm hlt hge
  obtain ⟨hstraps, hcap⟩ := issue_inputs h
  obtain ⟨t, rs, hissue, hsyms, -, -, ht⟩ := anyPartitionDrainsTheFrame
    { u with cur := { u.cur with phase := .emittingBits 0, rsp := some .nothing, strobes := [] } }
    frame sizes last rfl (by rwa [← hcap] at hm) hlt hge
  exact ⟨t, rs, issue_cons (execReset_eq u) rfl hissue, hsyms.trans (by rw [hstraps]), ht⟩

-- DRAIN and SUBMIT

/-- Callers that go on alike after every answer of an operation have performed alike. -/
theorem perform_congr {i : Instr} {s : State} {f g : Response → State → Sequence}
    (h : ∀ t r, exec i s = .next t → t.cur.rsp = some r → f r t = g r t) : perform i f s = perform i g s := by
  unfold perform
  cases hx : exec i s with
  | fault _ => rfl
  | refused _ => rfl
  | next t =>
    obtain ⟨r, hr⟩ := exec_rsp hx
    simp only [hr, h t r hx hr]

/-- DRAIN in a transmission is the partition into calls of one size: the responses stop it where the sizes reach the
17th symbol. -/
theorem drainWithin_eq_issue {frame : Frame} {n : Int} {k calls : Nat} {s : State} {e : Nat}
    (he : s.cur.phase.emittedCount = some e) (hn : 1 ≤ n) (hlt : e + (List.replicate k n).sum < 17)
    (hge : 17 ≤ e + (List.replicate k n).sum + n) (hcalls : k < calls) :
    drainWithin frame n calls s = issue (encodeCalls frame (List.replicate k n ++ [n])) s := by
  induction k generalizing s e calls with
  | zero =>
    obtain ⟨c, rfl⟩ : ∃ c, calls = c + 1 := ⟨calls - 1, by omega⟩
    rw [List.replicate_zero, List.sum_nil] at hlt hge
    refine perform_congr fun t r hx hr => ?_
    obtain ⟨rfl, -, -⟩ := execEncodeNext_call hx hr he (by omega) hn
    have hdone : decide (e + min n.toNat (17 - e) = 17) = true := decide_eq_true (by omega)
    rw [hdone]
    rfl
  | succ k ih =>
    obtain ⟨c, rfl⟩ : ∃ c, calls = c + 1 := ⟨calls - 1, by omega⟩
    rw [List.replicate_succ, List.sum_cons] at hlt hge
    have hsum : 0 ≤ (List.replicate k n).sum := List.sum_nonneg fun x hx => by
      rw [List.eq_of_mem_replicate hx]
      omega
    refine perform_congr fun t r hx hr => ?_
    obtain ⟨rfl, ht, -⟩ := execEncodeNext_call hx hr he (by omega) hn
    have hall : min n.toNat (17 - e) = n.toNat := by omega
    have hnot : decide (e + n.toNat = 17) = false := decide_eq_false (by omega)
    rw [hall] at ht
    rw [hall, hnot]
    exact ih ht (by omega) (by omega) (by omega)

/-- The calls before the last one in a drain of what is left by `n`. -/
theorem exists_drain_sizes {n : Int} (hn : 1 ≤ n) {e : Nat} (hlt : e < 17) :
    e + (List.replicate ((16 - e) / n.toNat) n).sum < 17 ∧
      17 ≤ e + (List.replicate ((16 - e) / n.toNat) n).sum + n ∧ (16 - e) / n.toNat < 17 := by
  obtain ⟨d, rfl⟩ : ∃ d : Nat, n = d := ⟨n.toNat, by omega⟩
  rw [List.sum_replicate, nsmul_eq_mul, Int.toNat_natCast]
  have hmod := Nat.mod_add_div' (16 - e) d
  have hrem := Nat.mod_lt (16 - e) (y := d) (by omega)
  have hle := Nat.div_le_self (16 - e) d
  norm_cast
  omega

/-- DRAIN of a frame in a transmission, as a partition. -/
theorem drain_eq_issue {frame : Frame} {n : Int} {s : State} {e : Nat} (he : s.cur.phase.emittedCount = some e)
    (hlt : e < 17) (hn : 1 ≤ n) : drain frame n s =
      issue (encodeCalls frame (List.replicate ((16 - e) / n.toNat) n ++ [n])) s := by
  obtain ⟨hsum, hreach, hcalls⟩ := exists_drain_sizes hn hlt
  exact drainWithin_eq_issue he hn hsum hreach hcalls

/-- Where the first call raises, DRAIN issues nothing more. -/
theorem drain_of_error {frame : Frame} {n : Int} {s : State} {err : ErrorKind}
    (h : encodeError s.cur.phase n = some err) : drain frame n s =
      .next ({ s with cur := { s.cur with rsp := some (.error err), strobes := [] } }, [.error err]) :=
  perform_next (execEncodeNext_of_error h) rfl rfl

/-- A sequence gives one response per operation. -/
theorem issue_length {is : List Instr} {s t : State} {rs : List Response} (h : issue is s = .next (t, rs)) :
    rs.length = is.length := by
  induction is generalizing s rs with
  | nil =>
    cases h
    rfl
  | cons i rest ih =>
    obtain ⟨u, r, rs', -, -, hi, rfl⟩ := issue_cons_inv h
    exact congrArg (· + 1) (ih hi)

theorem encodeCalls_length (frame : Frame) (sizes : List Int) : (encodeCalls frame sizes).length = sizes.length :=
  List.length_map _

/-- Settles O30: where the first call raises the drain ends there; else it is a partition, whose last call alone is
`done`. -/
theorem drainStopsAtDoneOrTheFirstError : Obligations.DrainStopsAtDoneOrTheFirstError := by
  intro s frame n
  cases herr : encodeError s.cur.phase n with
  | some err =>
    rw [drain_of_error herr]
    refine ⟨?_, ?_, fun _ => ⟨_, _, rfl⟩⟩
    · intro t rs h
      cases h
      exact ⟨issue_cons (execEncodeNext_of_error herr) rfl rfl, [], _, rfl, nofun, .inr ⟨err, rfl⟩⟩
    · rintro e h
      cases h
      rfl
  | none =>
    obtain ⟨⟨e, he, hlt⟩, hn⟩ := encodeError_none.mp herr
    obtain ⟨hsum, hreach, -⟩ := exists_drain_sizes hn hlt
    have hmem : ∀ m ∈ List.replicate ((16 - e) / n.toNat) n ++ [n], m = n := by
      rw [← List.replicate_succ']
      exact fun m => List.eq_of_mem_replicate
    rw [drain_eq_issue he hlt hn]
    refine ⟨fun t rs h => ?_, nofun, fun hcap => ?_⟩
    · obtain ⟨-, -, -, earlier, ss, hrs, hearlier⟩ :=
        issue_encodeCalls_next he (fun m hm => (hmem m hm).symm ▸ hn) hsum hreach h
      refine ⟨?_, earlier, _, hrs, hearlier, .inl ⟨ss, rfl⟩⟩
      have hlen := issue_length h
      rw [← List.replicate_succ'] at h hlen
      rwa [hlen, encodeCalls_length, List.length_replicate]
    · obtain ⟨t, rs, h, -⟩ := issue_encodeCalls_from (frame := frame) he
        (fun m hm => (hmem m hm).symm ▸ ⟨hn, hcap⟩) hsum hreach
      exact ⟨t, rs, h⟩

/-- The calls of a whole drain, counted as its first calls and the last. -/
theorem drainCalls_eq {n : Nat} (hn : 1 ≤ n) : drainCalls n = 16 / n + 1 := by
  unfold drainCalls
  rcases Nat.lt_or_ge 16 n with h | h
  · have hmin : min n 17 = 17 := by omega
    rw [hmin, Nat.div_eq_of_lt h]
  · have hmin : min n 17 = n := by omega
    have hsum : 17 + n - 1 = 16 + n := by omega
    rw [hmin, hsum, Nat.add_div_right _ hn]

/-- DRAIN of a whole frame within the buffer (30_encoding.md R78). -/
theorem drain_whole_frame {s : State} {frame : Frame} {n : Int} (hs : s.cur.phase = .emittingBits 0) (hn : 1 ≤ n)
    (hcap : n ≤ (s.cur.cap : Int)) : ∃ t rs, drain frame n s = .next (t, rs) ∧ rs.length = drainCalls n.toNat ∧
      rs.flatMap Response.symbols = symbolSeq s.cur.straps frame ∧ t.cur.phase = .done := by
  have he := emittedCount_of_armed_first hs
  obtain ⟨hsum, hreach, -⟩ := exists_drain_sizes hn (e := 0) (by decide)
  have hmem : ∀ m ∈ List.replicate (16 / n.toNat) n ++ [n], 1 ≤ m ∧ m ≤ (s.cur.cap : Int) := by
    rw [← List.replicate_succ']
    exact fun m hm => List.eq_of_mem_replicate hm ▸ ⟨hn, hcap⟩
  obtain ⟨t, rs, hissue, hsyms, -, ht⟩ := issue_encodeCalls_from (frame := frame) he hmem hsum hreach
  refine ⟨t, rs, (drain_eq_issue he (by decide) hn).trans hissue, ?_, hsyms, ht⟩
  rw [issue_length hissue, encodeCalls_length, drainCalls_eq (by omega), ← List.replicate_succ', List.length_replicate]

/-- Settles O31: SUBMIT is BUILD_FRAME, RESET and the drain of a whole frame, and goes on only from a frame. -/
theorem submitSendsOneWholeFrame : Obligations.SubmitSendsOneWholeFrame := by
  intro s command tel n
  refine ⟨fun h0 h1 hn hcap => ?_, fun hout => ?_⟩
  · have hbuild := buildFrame_of_inRange h0 h1 tel s.cur.straps.bidir
    generalize payloadOf (BitVec.ofInt 11 command) tel ++
      checksumOf (payloadOf (BitVec.ofInt 11 command) tel) s.cur.straps.bidir = f at hbuild
    obtain ⟨t, rs, hdrain, hlen, hsyms, ht⟩ := drain_whole_frame (frame := f) (n := n)
      (s := { s with cur := { s.cur with phase := .emittingBits 0, rsp := some .nothing, strobes := [] } }) rfl hn hcap
    have hreset := perform_next (andThen := fun _ u => drain f n u)
      (execReset_eq { s with cur := { s.cur with rsp := some (.frame f), strobes := [] } }) rfl hdrain
    exact ⟨f, t, rs, hbuild, perform_next (execBuildFrame_of_ok hbuild s) rfl hreset, hlen, hsyms, ht⟩
  · exact perform_next (execBuildFrame_of_error (buildFrame_error_iff.mpr ⟨rfl, hout⟩) s) rfl rfl

-- The end of a transmission

/-- An operation of a transmission that leaves it in progress: the Encoder State counts the symbols handed over, and
has some left (41_symbol_encoder.md R128). -/
theorem transmissionEnd_operation {i : Instr} {s t : State} {r : Response} {es : List TransmissionEvent} {e : Nat}
    (h : exec i s = .next t) (hr : t.cur.rsp = some r) (he : s.cur.phase.emittedCount = some e) (hlt : e < 17)
    (hend : transmissionEnd (.operation i r :: es) = .inProgress) :
    transmissionEnd es = .inProgress ∧ t.cur.phase.emittedCount = some (e + r.symbols.length) ∧
      e + r.symbols.length < 17 := by
  cases i with
  | buildFrame command tel b =>
    obtain ⟨r', hx, hr'⟩ := execBuildFrame_cases command tel b s
    cases hx.symm.trans h
    cases hr
    have hsyms : r.symbols = [] := by
      rcases hr' with ⟨f, -, rfl⟩ | ⟨err, -, rfl⟩ <;> rfl
    rw [hsyms]
    exact ⟨hend, he, hlt⟩
  | reset => cases hend
  | encodeNext f m =>
    rcases execEncodeNext_next h with ⟨err, -, rfl⟩ | ⟨e', -, he', -, hm, -, rfl⟩
    · cases hr
      cases hend
    · cases he.symm.trans he'
      cases hr
      have hcount := emittedCount_emitted he f m
      have hlen : (callSymbols s.cur.straps f e (emittedBy s.cur.phase m)).length = emittedBy s.cur.phase m := by
        rw [callSymbols_length, emittedBy_eq he]
        omega
      by_cases hdone : e + emittedBy s.cur.phase m = 17
      · rw [decide_eq_true hdone] at hend
        cases hend
      · rw [decide_eq_false hdone] at hend
        rw [Response.symbols_encoded, hlen]
        have hle := emittedCount_le hcount
        exact ⟨hend, hcount, by omega⟩

/-- Operations that leave a transmission in progress. -/
theorem issue_inProgress {is : List Instr} {s t : State} {rs : List Response} {e : Nat}
    (he : s.cur.phase.emittedCount = some e) (hlt : e < 17) (h : issue is s = .next (t, rs))
    (hend : transmissionEnd (eventsOf is rs) = .inProgress) :
    t.cur.phase.emittedCount = some (e + (rs.flatMap Response.symbols).length) ∧
      e + (rs.flatMap Response.symbols).length < 17 := by
  induction is generalizing s e rs with
  | nil =>
    cases h
    exact ⟨he, hlt⟩
  | cons i rest ih =>
    obtain ⟨u, r, rs', hx, hr, hi, rfl⟩ := issue_cons_inv h
    obtain ⟨hend', hu, hltu⟩ := transmissionEnd_operation hx hr he hlt hend
    rw [List.flatMap_cons, List.length_append, ← Nat.add_assoc]
    exact ih hu hltu hi hend'

/-- Settles O32: by induction on the operations the emitted count keeps step with the symbols handed over; a whole drain
ends with `done`. -/
theorem transmissionInProgressUntilItEnds : Obligations.TransmissionInProgressUntilItEnds := by
  refine ⟨fun is s t rs hs h hend => ?_, fun s t frame sizes last rs hs hm hlt hge h => ?_⟩
  · obtain ⟨ht, hlt⟩ := issue_inProgress (emittedCount_of_armed_first hs) (by decide) h hend
    rw [Nat.zero_add] at ht hlt
    exact ⟨inProgress_iff.mpr ⟨_, ht, hlt⟩, ht⟩
  · obtain ⟨-, -, hcomplete, -⟩ := issue_encodeCalls_next (emittedCount_of_armed_first hs) hm (by simpa using hlt)
      (by simpa using hge) h
    exact hcomplete

end Sys2Proof.Machine

namespace Sys2Proof.Machine

-- One step of one channel

/-- A step serves its input on the channel it is addressed to, made the current one among unchanged channels. -/
theorem step_on {s : State} {input : Input} {rest : List Input} {c : Channel} (hs : s.script = input :: rest)
    (hc : s.channels[input.channel]? = some c) :
    ∃ u : State, u.channels = s.channels ∧ u.index = input.channel ∧ u.script = rest ∧ u.cur = c ∧
      step s = serve input u := by
  obtain ⟨hk, -⟩ := List.getElem?_eq_some_iff.mp hc
  obtain ⟨u, hu⟩ := (State.selectChannel_isSome (s := { s with script := rest })).mpr hk
  obtain ⟨hchannels, hindex, hscript, hcur⟩ := State.selectChannel_eq hu
  exact ⟨u, hchannels, hindex, hscript, Option.some.inj (hcur.symm.trans hc), step_cons hs hu⟩

/-- A step with an input for the current channel. -/
theorem step_cur {s : State} {input : Input} {rest : List Input} (hs : s.script = input :: rest)
    (hk : input.channel = s.index) : step s = serve input { s with script := rest } :=
  step_cons hs (by rw [hk]; exact State.selectChannel_index { s with script := rest })

/-- What a step does where its channel answers: the channel's result is put in its place. -/
theorem step_of_serveOn {s : State} {input : Input} {rest : List Input} {c d : Channel}
    (hs : s.script = input :: rest) (hc : s.channels[input.channel]? = some c) (h : serveOn input c = .next d) :
    ∃ t : State, step s = .next t ∧ t.index = input.channel ∧ t.script = rest ∧
      t.channels = s.channels.set input.channel d := by
  obtain ⟨u, hchannels, hindex, hscript, rfl, hstep⟩ := step_on hs hc
  refine ⟨{ u with cur := d }, ?_, hindex, hscript, ?_⟩
  · rw [hstep, serve_eq_lift, h]
    rfl
  · rw [channels_set_cur, hindex, hchannels]

/-- What is put among the others where something done to the current channel answers. -/
theorem State.lift_eq_next {s t : State} {o : Host.Outcome Channel Fault Refusal} (h : s.lift o = .next t) :
    ∃ d, o = .next d ∧ t = { s with cur := d } := by
  cases o with
  | next d =>
    cases h
    exact ⟨d, rfl, rfl⟩
  | fault f => cases h
  | refused r => cases h

/-- What a step that answers has done: its channel answered, and its result was put in its place. -/
theorem step_next {s t : State} {input : Input} {rest : List Input} (hs : s.script = input :: rest)
    (h : step s = .next t) : ∃ c d, s.channels[input.channel]? = some c ∧ serveOn input c = .next d ∧
      t.script = rest ∧ t.channels = s.channels.set input.channel d := by
  rcases step_cases hs with ⟨-, hno⟩ | ⟨u, hchannels, hindex, hscript, hc, hstep⟩
  · cases hno.symm.trans h
  · obtain ⟨d, hd, rfl⟩ := State.lift_eq_next (hstep.symm.trans h)
    exact ⟨_, d, hc, hd, hscript, by rw [channels_set_cur, hindex, hchannels]⟩

/-- The channel a step acted on, after it. -/
theorem getElem?_of_set {l l' : List Channel} {k : Nat} {c d : Channel} (hc : l[k]? = some c) (h : l' = l.set k d) :
    l'[k]? = some d := by
  obtain ⟨hk, -⟩ := List.getElem?_eq_some_iff.mp hc
  rw [h, List.getElem?_set_self hk]

theorem getElem?_of_set_ne {l l' : List Channel} {j k : Nat} {d : Channel} (hj : j ≠ k) (h : l' = l.set k d) :
    l'[j]? = l[j]? := by
  rw [h, List.getElem?_set_ne hj.symm]

/-- Settles O50: a step puts one channel's result in its place. -/
theorem stepTouchesOneChannel : Obligations.StepTouchesOneChannel := by
  intro s t input rest hs h
  obtain ⟨c, d, -, -, hscript, hchannels⟩ := step_next hs h
  exact ⟨hscript, by rw [hchannels, List.length_set], fun j hj => getElem?_of_set_ne hj hchannels⟩

/-- Settles O51: the end of a step is that of serving the input on the channel alone. -/
theorem channelResultDependsOnThatChannelAlone : Obligations.ChannelResultDependsOnThatChannelAlone := by
  intro s s' input rest rest' c hs hs' hc hc'
  cases hd : serveOn input c with
  | next d =>
    obtain ⟨t, hstep, -, -, ht⟩ := step_of_serveOn hs hc hd
    obtain ⟨t', hstep', -, -, ht'⟩ := step_of_serveOn hs' hc' hd
    exact .inl ⟨t, t', hstep, hstep', by rw [getElem?_of_set hc ht, getElem?_of_set hc' ht']⟩
  | fault f =>
    obtain ⟨u, -, -, -, rfl, hstep⟩ := step_on hs hc
    obtain ⟨u', -, -, -, hu', hstep'⟩ := step_on hs' hc'
    exact .inr (.inl ⟨f, by rw [hstep, serve_eq_lift, hd]; rfl, by rw [hstep', serve_eq_lift, hu', hd]; rfl⟩)
  | refused r =>
    obtain ⟨u, -, -, -, rfl, hstep⟩ := step_on hs hc
    obtain ⟨u', -, -, -, hu', hstep'⟩ := step_on hs' hc'
    exact .inr (.inr ⟨r, by rw [hstep, serve_eq_lift, hd]; rfl, by rw [hstep', serve_eq_lift, hu', hd]; rfl⟩)

/-- Settles O52: each input is served on its own channel, which the other leaves alone, and putting the two results in
their places commutes. -/
theorem interleavingOfChannelsIsIrrelevant : Obligations.InterleavingOfChannelsIsIrrelevant := by
  intro s t u a b rest hne hs hst htu
  obtain ⟨c, c', hc, hserve, ht, htchannels⟩ := step_next hs hst
  obtain ⟨d, d', hd, hserve', hu, huchannels⟩ := step_next ht htu
  rw [getElem?_of_set_ne hne.symm htchannels] at hd
  obtain ⟨t', hst', -, ht', htchannels'⟩ := step_of_serveOn (s := { s with script := b :: a :: rest }) rfl hd hserve'
  have hc' : t'.channels[a.channel]? = some c := (getElem?_of_set_ne hne htchannels').trans hc
  obtain ⟨u', htu', -, hu', huchannels'⟩ := step_of_serveOn ht' hc' hserve
  refine ⟨t', u', hst', htu', ?_, hu'.trans hu.symm⟩
  rw [huchannels', htchannels', huchannels, htchannels]
  exact List.set_comm _ _ hne.symm

-- What a clock does

/-- A clock in hardware reset (70_reset_and_hazards.md R170). -/
theorem clockOn_hwRst {c : Channel} (h : c.hwRst = true) : clockOn c = .next c.hardwareReset := by
  unfold clockOn
  rw [if_pos h]

/-- A clock with nothing offered (70_reset_and_hazards.md R172). -/
theorem clockOn_idle {c : Channel} (h : c.hwRst = false) (hq : c.req = none) : clockOn c = .next c.quiet := by
  unfold clockOn
  rw [if_neg (by simp [h]), hq]

/-- The channel after a clock with no request accepted: quiet, and while `hw_rst` is high in its reset state. -/
def Channel.settled (c : Channel) : Channel :=
  { c with phase := if c.hwRst then .awaitingReset else c.phase, rsp := none, strobes := [] }

theorem clockOn_settled {c : Channel} (h : c.hwRst = false → c.req = none) : clockOn c = .next c.settled := by
  cases hr : c.hwRst with
  | true =>
    rw [clockOn_hwRst hr, Channel.hardwareReset_eq, Channel.settled, if_pos hr]
  | false =>
    rw [clockOn_idle hr (h hr), Channel.settled, if_neg (by simp [hr])]
    rfl

/-- Settles O43: with nothing offered and `hw_rst` low, whatever the input was, the channel is clocked idle. -/
theorem idleInstanceChangesNothing : Obligations.IdleInstanceChangesNothing := by
  refine ⟨fun s hs hr hq => ?_, fun s k rest c input hs hc hin => ?_⟩
  · have hstep : step s = clockChannel s := by simp only [step, nextInput, hs]
    rw [hstep, clockChannel_eq_lift, clockOn_idle hr hq]
    rfl
  · have hserve : input.channel = k ∧ serveOn input c =
        .next { c with hwRst := false, req := none, rsp := none, strobes := [] } := by
      obtain ⟨phase, straps, cap, symbuf, hwRst, req, rsp, strobes⟩ := c
      rcases hin with ⟨rfl, rfl, rfl⟩ | ⟨rfl, rfl⟩ | ⟨rfl, rfl⟩
      · exact ⟨rfl, clockOn_idle rfl rfl⟩
      · exact ⟨rfl, clockOn_idle rfl rfl⟩
      · exact ⟨rfl, clockOn_idle rfl rfl⟩
    obtain ⟨rfl, hserve⟩ := hserve
    exact step_of_serveOn hs hc hserve

/-- Settles O44: while `hw_rst` stays high every clock takes the reset state, and the input sets the request lines
only. -/
theorem hardwareResetHoldsTheInstance : Obligations.HardwareResetHoldsTheInstance := by
  intro s k rest c input offer hs hc hr hin
  have hserve : input.channel = k ∧ serveOn input c =
      .next { c with phase := .awaitingReset, req := offer, rsp := none, strobes := [] } := by
    obtain ⟨phase, straps, cap, symbuf, hwRst, req, rsp, strobes⟩ := c
    cases hr
    rcases hin with ⟨rfl, rfl⟩ | ⟨rfl, rfl⟩ | ⟨rfl, rfl⟩ | ⟨w, rfl, rfl⟩ | ⟨w, writes, rfl, rfl⟩
    · exact ⟨rfl, clockOn_hwRst rfl⟩
    · exact ⟨rfl, clockOn_hwRst rfl⟩
    · exact ⟨rfl, clockOn_hwRst rfl⟩
    · exact ⟨rfl, clockOn_hwRst rfl⟩
    · exact ⟨rfl, rfl⟩
  obtain ⟨rfl, hserve⟩ := hserve
  exact step_of_serveOn hs hc hserve

/-- Settles O45: the clock with `hw_rst` just driven high. -/
theorem hardwareResetTakesTheResetState : Obligations.HardwareResetTakesTheResetState := by
  intro s k rest c hs hc
  have hserve : serveOn (.hwReset k true) c =
      .next { c with hwRst := true, phase := .awaitingReset, rsp := none, strobes := [] } := clockOn_hwRst rfl
  obtain ⟨t, hstep, -, hscript, hchannels⟩ := step_of_serveOn hs hc hserve
  exact ⟨t, hstep, hscript, by rw [hchannels, List.length_set], getElem?_of_set hc hchannels,
    fun j hj => getElem?_of_set_ne hj hchannels⟩

/-- Settles O46: in hardware reset the offer only stays on the lines, and the clock that releases `hw_rst` accepts
it. -/
theorem requestWaitsForTheReleaseOfReset : Obligations.RequestWaitsForTheReleaseOfReset := by
  intro s w rest hr hs
  refine ⟨_, ?_, rfl, ?_⟩
  · rw [step_cur hs rfl, serve_eq_lift]
    exact congrArg (State.lift _) (clockOn_hwRst (c := { s.cur with req := some w }) hr)
  · rw [step_cur rfl rfl]
    exact clockChannel_request rfl rfl

/-- A request served out of hardware reset is accepted, its lines cleared (70_reset_and_hazards.md R172). -/
theorem serve_request {u : State} (h : u.cur.hwRst = false) (k : Nat) (w : ReqWord) :
    serve (.request k w) u = acceptRequest w { u with cur := { u.cur with req := none } } :=
  clockChannel_request (s := { u with cur := { u.cur with req := some w } }) h rfl

/-- Settles O40: a request is served by accepting it, and what is accepted runs as the operation it decodes to. -/
theorem stepRunsTheDecodedOperation : Obligations.StepRunsTheDecodedOperation := by
  refine ⟨fun s w rest i hs hr hd => ?_, fun s k w rest i c hs hc hr hd => ?_⟩
  · rw [step_cur hs rfl, serve_request (u := { s with script := rest }) hr, acceptRequest_ok hd]
  · obtain ⟨u, hchannels, hindex, hscript, rfl, hstep⟩ := step_on hs hc
    exact ⟨u, hchannels, hindex, hscript, rfl, by rw [hstep, serve_request hr, acceptRequest_ok hd]⟩

/-- An accepted word with the reserved select code is refused. -/
theorem acceptRequest_reserved {w : ReqWord} (h : decode w = .error .reservedSelect) (s : State) :
    acceptRequest w s = .refused .reservedRequest := by
  simp only [acceptRequest, h]

/-- Settles O42: a request is served by accepting it, and the reserved select code is refused there. -/
theorem reservedRequestIsRefused : Obligations.ReservedRequestIsRefused := by
  intro s k w rest c hs hc hr ho
  obtain ⟨u, -, -, -, rfl, hstep⟩ := step_on hs hc
  rw [hstep, serve_request hr, acceptRequest_reserved (decode_reserved ho)]

/-- Settles O41: the placed word is offered to the current channel, out of hardware reset, as the next input. -/
theorem fetchedWordRunsNext : Obligations.FetchedWordRunsNext := by
  intro s w _
  have hstep : step (s.withFetchWord 32 w) = acceptRequest (BitVec.ofNat 32 (w % 2 ^ 32))
      { s with cur := { s.cur with hwRst := false, req := none } } :=
    (step_cur rfl rfl).trans (serve_request rfl _ _)
  cases hd : decode (BitVec.ofNat 32 (w % 2 ^ 32)) with
  | ok j =>
    have htable : decodeTableWord 32 w = some j := by simp only [decodeTableWord, hd]
    rw [htable, hstep, acceptRequest_ok hd]
    refine ⟨fun i hi => ?_, nofun⟩
    cases hi
    rfl
  | error e =>
    cases e
    have htable : decodeTableWord 32 w = none := by simp only [decodeTableWord, hd]
    rw [htable, hstep, acceptRequest_reserved hd]
    exact ⟨nofun, fun _ => rfl⟩

/-- Settles O49: each of these inputs changes one line or the buffer, and the clock after it settles the channel. -/
theorem callerActionsChangeWhatTheyDrive : Obligations.CallerActionsChangeWhatTheyDrive := by
  rintro s k rest c _ hc hidle rfl
  refine ⟨fun st hs => ?_, fun cap hs => ⟨fun h0 => ?_, fun h0 => ?_⟩, fun slot w hs => ⟨fun hout => ?_, fun hin => ?_⟩⟩
  · exact step_of_serveOn hs hc (clockOn_settled (c := { c with straps := st }) hidle)
  · obtain ⟨u, -, -, -, -, hstep⟩ := step_on hs hc
    exact hstep.trans (if_pos h0)
  · exact step_of_serveOn hs hc
      ((if_neg h0).trans (clockOn_settled (c := { c with cap := cap, symbuf := [] }) hidle))
  · obtain ⟨u, -, -, -, rfl, hstep⟩ := step_on hs hc
    exact hstep.trans (if_neg (by omega))
  · obtain ⟨t, hstep, hindex, hscript, hchannels⟩ := step_of_serveOn hs hc
      ((if_pos hin).trans (clockOn_settled (c := { c with symbuf := c.symbuf.write slot w }) hidle))
    exact ⟨t, _, hstep, hindex, hscript, hchannels, fun j => Memory.read_write _ _ _ _⟩

end Sys2Proof.Machine

namespace Sys2Proof.Machine

-- Hardware reset within an operation

/-- An operation that hands over no symbols issues no write (20_memory.md R42). -/
theorem exec_strobes_nil {i : Instr} {s t : State} (h : exec i s = .next t)
    (hne : ∀ ss done, t.cur.rsp ≠ some (.encoded ss done)) : t.cur.strobes = [] := by
  cases i with
  | buildFrame command tel b =>
    obtain ⟨r, hx, -⟩ := execBuildFrame_cases command tel b s
    cases hx.symm.trans h
    rfl
  | reset =>
    cases (execReset_eq s).symm.trans h
    rfl
  | encodeNext f m =>
    rcases execEncodeNext_next h with ⟨err, -, rfl⟩ | ⟨e, -, -, -, -, -, rfl⟩
    · rfl
    · exact absurd rfl (hne _ _)

/-- The first writes of a call are those of its first symbols. -/
theorem strobesOf_take (ss : List Symbol) (writes : Nat) : (strobesOf ss).take writes = strobesOf (ss.take writes) := by
  rw [← strobesFrom_zero, ← strobesFrom_zero, strobesFrom_take]

/-- A step in which hardware reset cuts an operation of the current channel: what the whole operation would have done,
cut (70_reset_and_hazards.md R175). -/
theorem step_requestCut {s t : State} {w : ReqWord} {writes : Nat} {rest : List Input} {i : Instr}
    (hs : s.script = .requestCut s.index w writes :: rest) (hr : s.cur.hwRst = false) (hd : decode w = .ok i)
    (h : exec i { s with script := rest, cur := { s.cur with req := none } } = .next t) :
    step s = .next (t.mapCur (cutOperation writes s.cur)) := by
  have hserve : step s = clockCut w writes { s with script := rest } := step_cur hs rfl
  have haccept : acceptRequest w ({ s with script := rest }.mapCur (fun c => { c with req := none })) = .next t :=
    (acceptRequest_ok hd _).trans h
  rw [hserve, clockCut, if_neg (by simp [hr]), haccept]

/-- Settles O47: of the strobes of the whole call the first stay, and they fill the slots of the first symbols. -/
theorem hardwareResetCutsAnOperation : Obligations.HardwareResetCutsAnOperation := by
  intro s t w writes rest i ss done hs hr hd h hrsp
  have hstep := step_requestCut hs hr hd h
  obtain ⟨⟨f, m, rfl⟩, -⟩ := exec_encoded h hrsp
  obtain ⟨e, -, -, -, rfl, rfl, -⟩ := execEncodeNext_encoded h hrsp
  refine ⟨_, hstep, rfl, rfl, rfl, rfl, rfl, rfl, rfl, rfl, rfl, rfl, fun k => ?_⟩
  have hlen := callSymbols_length s.cur.straps f e (emittedBy s.cur.phase m)
  have hread := read_writeAll_strobesOf s.cur.symbuf
    (ss := (callSymbols s.cur.straps f e (emittedBy s.cur.phase m)).take writes) (by rw [List.length_take]; omega) k
  rw [← strobesOf_take, List.length_take] at hread
  refine hread.trans ?_
  by_cases hk : k < min writes (callSymbols s.cur.straps f e (emittedBy s.cur.phase m)).length
  · rw [if_pos hk, List.getElem?_take_of_lt (by omega)]
    exact (if_pos hk).symm
  · rw [if_neg hk]
    exact (if_neg hk).symm

/-- Settles O48: no write was issued, so that none stays. -/
theorem hardwareResetCutsAWritelessOperation : Obligations.HardwareResetCutsAWritelessOperation := by
  intro s t w writes rest i hs hr hd h hne
  have hnil := exec_strobes_nil h hne
  have hf := exec_frame h
  rw [step_requestCut hs hr hd h, hf, hnil]
  simp [State.mapCur, cutOperation]

-- The invariant

/-- What the invariant says of the buffer: canonical form, inside its capacity, at least one slot. -/
def Channel.BufferOk (c : Channel) : Prop :=
  c.symbuf.wf ∧ (∀ p ∈ c.symbuf, p.1 < c.cap) ∧ 1 ≤ c.cap

theorem Channel.Inv.bufferOk {c : Channel} (h : c.Inv) : c.BufferOk := by
  obtain ⟨hwf, hbelow, hcap, -⟩ := h
  exact ⟨hwf, hbelow, hcap⟩

/-- A channel that presents no response meets the invariant by its buffer and its lines alone. -/
theorem Channel.BufferOk.inv_of_silent {c : Channel} (hb : c.BufferOk) (hrsp : c.rsp = none)
    (hrst : c.hwRst = true → c.phase = .awaitingReset) (hreq : c.req ≠ none → c.hwRst = true) : c.Inv := by
  obtain ⟨hwf, hbelow, hcap⟩ := hb
  refine ⟨hwf, hbelow, hcap, fun h => ⟨hrst h, hrsp⟩, hreq, ?_⟩
  simp [Channel.ResponseAgrees, hrsp]

/-- Writes inside the capacity keep the buffer. -/
theorem Channel.BufferOk.writeAll {c d : Channel} (hb : c.BufferOk) {xs : List (BitVec 5 × SymWord)}
    (hxs : ∀ p ∈ xs, p.1.toNat < c.cap) (hsymbuf : d.symbuf = c.symbuf.writeAll xs) (hcap : d.cap = c.cap) :
    d.BufferOk := by
  obtain ⟨hwf, hbelow, h1⟩ := hb
  unfold Channel.BufferOk
  rw [hsymbuf, hcap]
  exact ⟨Memory.writeAll_wf xs hwf, Memory.writeAll_below xs hxs hbelow, h1⟩

/-- An operation on one channel, as one on a machine of that channel. -/
theorem exec_of_execOn {i : Instr} {c d : Channel} (h : execOn i c = .ok d) :
    exec i { before := [], cur := c, after := [], script := [] } =
      .next { before := [], cur := d, after := [], script := [] } := by
  rw [exec_eq_lift, h]
  rfl

/-- What an operation does to SYMBUF is its writes, all inside the buffer (20_memory.md R42, R47). -/
theorem exec_symbuf {i : Instr} {s t : State} (h : exec i s = .next t) :
    t.cur.symbuf = s.cur.symbuf.writeAll t.cur.strobes ∧ ∀ p ∈ t.cur.strobes, p.1.toNat < s.cur.cap := by
  cases i with
  | buildFrame command tel b =>
    obtain ⟨r, hx, -⟩ := execBuildFrame_cases command tel b s
    cases hx.symm.trans h
    exact ⟨rfl, nofun⟩
  | reset =>
    cases (execReset_eq s).symm.trans h
    exact ⟨rfl, nofun⟩
  | encodeNext f m =>
    rcases execEncodeNext_next h with ⟨err, -, rfl⟩ | ⟨e, -, he, -, -, hfit, rfl⟩
    · exact ⟨rfl, nofun⟩
    · refine ⟨rfl, fun p hp => ?_⟩
      have hlen := callSymbols_length s.cur.straps f e (emittedBy s.cur.phase m)
      have hslot := strobesFrom_slots (k := 0) (by rw [hlen]; omega) (by rw [strobesFrom_zero]; exact hp)
      omega

/-- No emitted count is that of `AwaitingReset`. -/
theorem ofCount_ne_awaitingReset (e : Nat) : Phase.ofCount e ≠ .awaitingReset := by
  intro h
  have := Phase.armed_ofCount e
  rw [h] at this
  cases this

/-- The response of every operation agrees with the Encoder State and the SYMBUF port after it. -/
theorem exec_responseAgrees {i : Instr} {s t : State} (h : exec i s = .next t) : t.cur.ResponseAgrees := by
  cases i with
  | buildFrame command tel b =>
    obtain ⟨r, hx, ⟨f, -, rfl⟩ | ⟨err, he, rfl⟩⟩ := execBuildFrame_cases command tel b s
    · cases hx.symm.trans h
      rfl
    · cases (buildFrame_error_iff.mp he).1
      cases hx.symm.trans h
      rfl
  | reset =>
    cases (execReset_eq s).symm.trans h
    exact ⟨rfl, rfl⟩
  | encodeNext f m =>
    rcases execEncodeNext_next h with ⟨err, herr, rfl⟩ | ⟨e, -, he, hlt, hm, -, rfl⟩
    · rcases encodeError_some.mp herr with ⟨rfl, hp⟩ | ⟨rfl, hp, -⟩
      · exact ⟨rfl, hp⟩
      · refine ⟨rfl, ?_, ?_⟩
        · intro h0
          cases h0 ▸ hp
        · intro h0
          cases h0 ▸ hp
    · have hlen := callSymbols_length s.cur.straps f e (emittedBy s.cur.phase m)
      have hn := emittedBy_eq he m
      refine ⟨by omega, by omega, rfl, ?_, ofCount_ne_awaitingReset _⟩
      refine Eq.trans ?_ (Phase.isDone_ofCount _).symm
      rw [decide_eq_decide]
      omega

/-- An operation performed out of hardware reset, its request taken, leaves the invariant. -/
theorem execOn_inv {i : Instr} {c d : Channel} (h : execOn i c = .ok d) (hb : c.BufferOk)
    (hr : c.hwRst = false) (hq : c.req = none) : d.Inv := by
  obtain ⟨-, hcap, hrst, hreq⟩ := execOn_inputs h
  obtain ⟨hsymbuf, hslots⟩ := exec_symbuf (exec_of_execOn h)
  obtain ⟨hwf, hbelow, h1⟩ := hb.writeAll hslots hsymbuf hcap
  refine ⟨hwf, hbelow, h1, fun h => ?_, fun h => ?_, exec_responseAgrees (exec_of_execOn h)⟩
  · cases (hrst.trans hr).symm.trans h
  · exact absurd (hreq.trans hq) h

/-- A clock leaves the invariant, whatever its lines were set to. -/
theorem clockOn_inv {c d : Channel} (h : clockOn c = .next d) (hb : c.BufferOk) : d.Inv := by
  cases hr : c.hwRst with
  | true =>
    cases (clockOn_hwRst hr).symm.trans h
    exact Channel.BufferOk.inv_of_silent hb rfl (fun _ => rfl) (fun _ => hr)
  | false =>
    unfold clockOn at h
    rw [if_neg (by simp [hr])] at h
    split at h
    · rename_i hq
      cases h
      exact Channel.BufferOk.inv_of_silent hb rfl (fun h => absurd (hr.symm.trans h) (by decide)) (absurd hq)
    · obtain ⟨i, -, hx⟩ := acceptOn_next h
      exact execOn_inv hx hb hr rfl

/-- An input leaves the invariant. -/
theorem serveOn_inv {input : Input} {c d : Channel} (h : serveOn input c = .next d) (hb : c.BufferOk) : d.Inv := by
  cases input with
  | request ch w => exact clockOn_inv h hb
  | withdraw ch => exact clockOn_inv h hb
  | clock ch => exact clockOn_inv h hb
  | hwReset ch level => exact clockOn_inv h hb
  | configure ch st => exact clockOn_inv h hb
  | requestCut ch w writes =>
    simp only [serveOn] at h
    split at h
    · rename_i hr
      cases h
      exact Channel.BufferOk.inv_of_silent hb rfl (fun _ => rfl) (fun _ => hr)
    · split at h
      · rename_i c' hc'
        cases h
        obtain ⟨i, -, hx⟩ := acceptOn_next hc'
        obtain ⟨-, hcap, -, -⟩ := execOn_inputs hx
        obtain ⟨-, hslots⟩ := exec_symbuf (exec_of_execOn hx)
        refine Channel.BufferOk.inv_of_silent ?_ rfl (fun _ => rfl) (fun _ => rfl)
        exact hb.writeAll (fun p hp => hslots p (List.mem_of_mem_take hp)) rfl hcap
      · cases h
      · cases h
  | provideBuffer ch cap =>
    simp only [serveOn] at h
    split at h
    · cases h
    · rename_i hcap
      exact clockOn_inv h ⟨Memory.wf_nil, List.forall_mem_nil _, Nat.pos_of_ne_zero hcap⟩
  | hostStore ch slot w =>
    obtain ⟨hwf, hbelow, h1⟩ := hb
    simp only [serveOn] at h
    split at h
    · rename_i hslot
      exact clockOn_inv h ⟨Memory.write_wf _ _ hwf, Memory.write_below _ hslot hbelow, h1⟩
    · cases h

/-- Settles O39: a step puts one channel's result in its place; that channel kept its buffer, and its lines and response
are those of the clock it ends with. -/
theorem everyStepKeepsTheInvariant : Obligations.EveryStepKeepsTheInvariant := by
  intro s t hinv h
  cases hs : s.script with
  | nil =>
    have hstep : step s = s.lift (clockOn s.cur) := by
      rw [← clockChannel_eq_lift]
      simp only [step, nextInput, hs]
    have hcur := Channel.Inv.bufferOk (hinv s.cur (s.mem_channels.mpr (.inr (.inl rfl))))
    obtain ⟨d, hd, rfl⟩ := State.lift_eq_next (hstep.symm.trans h)
    intro c hc
    rw [channels_set_cur] at hc
    rcases List.mem_or_eq_of_mem_set hc with hc | rfl
    · exact hinv c hc
    · exact clockOn_inv hd hcur
  | cons input rest =>
    obtain ⟨c, d, hc, hserve, -, hchannels⟩ := step_next hs h
    intro c' hc'
    rw [hchannels] at hc'
    rcases List.mem_or_eq_of_mem_set hc' with hc' | rfl
    · exact hinv c' hc'
    · exact serveOn_inv hserve (Channel.Inv.bufferOk (hinv c (List.mem_of_getElem? hc)))

end Sys2Proof.Machine

namespace Sys2Proof.Machine

-- A transmission on the running machine

/-- What follows a transmission still in progress decides its end. -/
theorem transmissionEnd_append {es : List TransmissionEvent} (h : transmissionEnd es = .inProgress)
    (fs : List TransmissionEvent) : transmissionEnd (es ++ fs) = transmissionEnd fs := by
  induction es with
  | nil => rfl
  | cons ev rest ih =>
    cases ev with
    | hardwareReset => cases h
    | operation i r =>
      cases i with
      | buildFrame command tel b => exact ih h
      | reset => cases h
      | encodeNext f m =>
        cases r with
        | frame _ => exact ih h
        | nothing => exact ih h
        | error _ => cases h
        | encoded ss done =>
          cases done with
          | false => exact ih h
          | true => cases h

/-- A run of one action and more that answers, taken apart at the first step. -/
theorem runInputs_cons_next {k : Nat} {input : Input} {rest : List Input} {s u : State} {es : List TransmissionEvent}
    (h : runInputs k (input :: rest) s = .next (u, es)) :
    ∃ t es', step { s with script := [input] } = .next t ∧ runInputs k rest t = .next (u, es') ∧
      es = (eventAt k input s t).toList ++ es' := by
  unfold runInputs at h
  cases hstep : step { s with script := [input] } with
  | fault f => simp [hstep] at h
  | refused r => simp [hstep] at h
  | next t =>
    simp only [hstep] at h
    cases hrest : runInputs k rest t with
    | fault f => simp [hrest] at h
    | refused r => simp [hrest] at h
    | next p =>
      simp only [hrest] at h
      cases h
      exact ⟨t, _, rfl, hrest, rfl⟩

theorem runInputs_cons {k : Nat} {input : Input} {rest : List Input} {s t u : State} {es : List TransmissionEvent}
    (hstep : step { s with script := [input] } = .next t) (hrest : runInputs k rest t = .next (u, es)) :
    runInputs k (input :: rest) s = .next (u, (eventAt k input s t).toList ++ es) := by
  simp only [runInputs, hstep, hrest]

/-- Runs one after the other are one run, and their events follow each other. -/
theorem runInputs_append {k : Nat} {xs ys : List Input} {s t u : State} {es fs : List TransmissionEvent}
    (hx : runInputs k xs s = .next (t, es)) (hy : runInputs k ys t = .next (u, fs)) :
    runInputs k (xs ++ ys) s = .next (u, es ++ fs) := by
  induction xs generalizing s es with
  | nil =>
    cases hx
    exact hy
  | cons input rest ih =>
    obtain ⟨v, es', hstep, hrest, rfl⟩ := runInputs_cons_next hx
    rw [List.append_assoc]
    exact runInputs_cons hstep (ih hrest)

/-- What a step is for the transmission of the channel it is addressed to. -/
theorem eventAt_of_channel {k : Nat} {input : Input} {s t : State} {c d : Channel} (hk : input.channel = k)
    (hc : s.channels[k]? = some c) (hd : t.channels[k]? = some d) : eventAt k input s t = eventOf input c d := by
  simp only [eventAt, if_pos hk, hc, hd]

/-- One step of the machine that leaves the transmission of channel `k` in progress: that channel's Encoder State counts
the symbols handed over, and has some left (41_symbol_encoder.md R128). -/
theorem step_inProgress {k : Nat} {input : Input} {s t : State} {c : Channel} {es : List TransmissionEvent} {e : Nat}
    (hstep : step { s with script := [input] } = .next t) (hc : s.channels[k]? = some c)
    (he : c.phase.emittedCount = some e) (hlt : e < 17)
    (hend : transmissionEnd ((eventAt k input s t).toList ++ es) = .inProgress) :
    transmissionEnd es = .inProgress ∧ ∃ d e', t.channels[k]? = some d ∧ d.phase.emittedCount = some e' ∧ e' < 17 ∧
      e' = e + ((eventAt k input s t).toList.flatMap TransmissionEvent.symbols).length := by
  obtain ⟨c', d, hc', hserve, -, hchannels⟩ := step_next rfl hstep
  by_cases hk : input.channel = k
  · subst hk
    cases hc.symm.trans hc'
    have hd := getElem?_of_set hc hchannels
    rw [eventAt_of_channel rfl hc hd] at hend ⊢
    rcases eventOf_cases hserve with ⟨hev, -⟩ | ⟨hev, hphase⟩ | ⟨i, r, c₀, hev, hr, hphase, hx⟩
    · rw [hev] at hend
      cases hend
    · rw [hev] at hend ⊢
      exact ⟨hend, d, e, hd, hphase ▸ he, hlt, rfl⟩
    · rw [hev] at hend ⊢
      obtain ⟨hend', hcount, hlt'⟩ :=
        transmissionEnd_operation (exec_of_execOn hx) hr (by rw [← he, ← hphase]) hlt hend
      exact ⟨hend', d, _, hd, hcount, hlt', by simp [TransmissionEvent.symbols]⟩
  · have hev : eventAt k input s t = none := if_neg hk
    rw [hev] at hend ⊢
    exact ⟨hend, c, e, (getElem?_of_set_ne (Ne.symm hk) hchannels).trans hc, he, hlt, rfl⟩

/-- A run that leaves the transmission of channel `k` in progress. -/
theorem runInputs_inProgress {inputs : List Input} {k : Nat} {s t : State} {c : Channel}
    {es : List TransmissionEvent} {e : Nat} (hc : s.channels[k]? = some c) (he : c.phase.emittedCount = some e)
    (hlt : e < 17) (h : runInputs k inputs s = .next (t, es)) (hend : transmissionEnd es = .inProgress) :
    ∃ d e', t.channels[k]? = some d ∧ d.phase.emittedCount = some e' ∧ e' < 17 ∧
      e' = e + (es.flatMap TransmissionEvent.symbols).length := by
  induction inputs generalizing s c e es with
  | nil =>
    cases h
    exact ⟨c, e, hc, he, hlt, rfl⟩
  | cons input rest ih =>
    obtain ⟨u, es', hstep, hrest, rfl⟩ := runInputs_cons_next h
    obtain ⟨hend', c', e', hc', he', hlt', hsum⟩ := step_inProgress hstep hc he hlt hend
    obtain ⟨d, e'', hd, he'', hlt'', hsum'⟩ := ih hc' he' hlt' hrest hend'
    exact ⟨d, e'', hd, he'', hlt'', by rw [hsum', hsum, List.flatMap_append, List.length_append, Nat.add_assoc]⟩

/-- An input that drives `hw_rst` high leaves it high, in `AwaitingReset`. -/
theorem serveOn_hardwareReset {k : Nat} {input : Input} {c d : Channel}
    (hin : input = .hwReset k true ∨ ∃ w writes, input = .requestCut k w writes) (h : serveOn input c = .next d) :
    d.hwRst = true ∧ d.phase = .awaitingReset := by
  rcases hin with rfl | ⟨w, writes, rfl⟩
  · cases (clockOn_hwRst (c := { c with hwRst := true }) rfl).symm.trans h
    exact ⟨rfl, rfl⟩
  · simp only [serveOn] at h
    split at h
    · rename_i hr
      cases h
      exact ⟨hr, rfl⟩
    · split at h
      · cases h
        exact ⟨rfl, rfl⟩
      · cases h
      · cases h

/-- Settles O33: by induction on the run the emitted count keeps step with the symbols handed over; an input that drives
`hw_rst` high adds the one event that cancels. -/
theorem hardwareResetCancelsTheTransmission : Obligations.HardwareResetCancelsTheTransmission := by
  intro inputs k s t c es hc hphase h hend
  have he : c.phase.emittedCount = some 0 := by rw [hphase]; rfl
  obtain ⟨d, e, hd, hcount, hlt, hsum⟩ := runInputs_inProgress hc he (by decide) h hend
  rw [Nat.zero_add] at hsum
  obtain ⟨u, hreset, -⟩ := step_of_serveOn (s := { t with script := [.hwReset k true] }) rfl hd
    (clockOn_hwRst (c := { d with hwRst := true }) rfl)
  refine ⟨d, hd, inProgress_iff.mpr ⟨e, hcount, hlt⟩, by rw [hcount, hsum], ⟨u, hreset⟩, fun input v hin hstep => ?_⟩
  have hk : input.channel = k := by
    rcases hin with rfl | ⟨w, writes, rfl⟩ <;> rfl
  subst hk
  obtain ⟨d', v', hd', hserve, -, hchannels⟩ := step_next rfl hstep
  cases hd.symm.trans hd'
  obtain ⟨hrst, hawait⟩ := serveOn_hardwareReset hin hserve
  have hv := getElem?_of_set hd hchannels
  have hev : eventAt input.channel input t v = some .hardwareReset := by
    rw [eventAt_of_channel rfl hd hv, eventOf, if_pos hrst]
  have hlast : runInputs input.channel [input] t = .next (v, [.hardwareReset]) := by
    rw [runInputs_cons (rest := []) hstep rfl, hev]
    rfl
  exact ⟨runInputs_append h hlast, (transmissionEnd_append hend _).trans rfl, v', hv, hawait⟩

-- The dutiful caller

/-- Settles O53: a command in range builds a frame, RESET always answers, and an ENCODE_NEXT in an open transmission
with room within the buffer neither raises nor overruns; its `done` says whether symbols are left. -/
theorem dutifulOperationSucceeds : Obligations.DutifulOperationSucceeds := by
  intro s track i hagrees hduty
  cases i with
  | buildFrame command tel b =>
    obtain ⟨h0, h1⟩ := of_decide_eq_true hduty
    exact ⟨_, _, execBuildFrame_of_ok (buildFrame_of_inRange h0 h1 tel b) s, rfl, nofun, hagrees, rfl⟩
  | reset => exact ⟨_, _, execReset_eq s, rfl, nofun, rfl, rfl⟩
  | encodeNext f m =>
    simp only [Duty, Bool.and_eq_true, decide_eq_true_eq] at hduty
    obtain ⟨⟨hopen, h1, hcap⟩, -⟩ := hduty
    obtain ⟨e, he, hlt⟩ := inProgress_iff.mp (hagrees.symm.trans hopen)
    obtain ⟨t, hx, hrsp, hphase, -, hcapt⟩ := execEncodeNext_of_fits (f := f) he hlt h1 rfl (by omega)
    refine ⟨t, _, hx, hrsp, nofun, ?_, hcapt⟩
    unfold Track.agrees
    rw [hphase]
    by_cases hdone : 17 ≤ e + min m.toNat (17 - e)
    · rw [decide_eq_true hdone, Phase.isDone_iff.mp ((Phase.isDone_ofCount _).trans (decide_eq_true hdone))]
      rfl
    · rw [decide_eq_false hdone, inProgress_iff.mpr ⟨_, emittedCount_ofCount (by omega), by omega⟩]
      rfl

/-- Settles O54: by induction on the run, the caller's memory stays true and no operation of it raises. -/
theorem dutifulRunMeetsNoError : Obligations.DutifulRunMeetsNoError := by
  intro is
  induction is with
  | nil =>
    intro s t rs track _ h _
    cases h
    nofun
  | cons i rest ih =>
    intro s t rs track hagrees h hduty
    obtain ⟨u, r, rs', hx, hr, hissue, rfl⟩ := issue_cons_inv h
    obtain ⟨hi, hrest⟩ := Bool.and_eq_true_iff.mp hduty
    obtain ⟨u', r', hx', hr', hne, hagrees', hcap⟩ := dutifulOperationSucceeds s track i hagrees hi
    cases hx.symm.trans hx'
    cases hr.symm.trans hr'
    rw [← hcap] at hrest
    exact List.forall_mem_cons.mpr ⟨hne, ih u t rs' _ hagrees' hissue hrest⟩

end Sys2Proof.Machine

namespace Sys2Proof.Machine

-- Durations and straps

/-- With legal straps every bit symbol lasts one bit period (00_scope.md R8 (a)). -/
theorem bitSymbol_ticks {st : Straps} (h : st.Legal) (b : Bool) : (bitSymbol st b).ticks = st.tBit := by
  cases b with
  | false => exact h.1.symm
  | true => rfl

/-- Settles O34: 16 symbols of one bit period each, then the gap, the only symbol without a high part. -/
theorem sequenceLastsSixteenBitsAndTheGap : Obligations.SequenceLastsSixteenBitsAndTheGap := by
  intro st f hlegal
  refine ⟨symbolSeq_length st f, ?_, fun k sy hk => ?_⟩
  · have hbits : (bitSymbols st f).map Symbol.ticks = List.replicate 16 st.tBit := by
      rw [bitSymbols, List.map_map]
      exact List.map_eq_replicate_iff.mpr fun t _ => bitSymbol_ticks hlegal _
    have hgap : (gapSymbol st).ticks = st.tGap.toNat := Nat.zero_add _
    rw [symbolSeq_eq, List.map_append, hbits, List.sum_append, List.sum_replicate, List.map_singleton,
      List.sum_singleton, hgap, smul_eq_mul]
  · rcases Nat.lt_trichotomy k 16 with hlt | rfl | hgt
    · cases (symbolSeq_bit st f hlt).symm.trans hk
      simp [bitSymbol_isGap hlegal, hlt.ne]
    · cases (symbolSeq_gap st f).symm.trans hk
      simp [gapSymbol_isGap]
    · rw [List.getElem?_eq_none (by simp; omega)] at hk
      cases hk

/-- Settles O35: the symbol at a bit's index is the configured pair of that bit. -/
theorem bitSymbolsKeepTheRatios : Obligations.BitSymbolsKeepTheRatios := by
  intro st f t sy ht hlegal hratios hsy
  cases (symbolSeq_bit st f ht).symm.trans hsy
  refine ⟨rfl, bitSymbol_ticks hlegal _, ?_⟩
  cases frameBit f t with
  | false => exact hratios.2
  | true => exact hratios.1

/-- A count that fits a tick is not cut by it. -/
theorem tick_toNat {n : Nat} (h : n ≤ 65535) : (BitVec.ofNat 16 n).toNat = n := by
  rw [BitVec.toNat_ofNat]
  omega

/-- Three quarters of a bit period to the nearest tick, the high part of a 1 bit. -/
theorem roundDiv_three_quarters (tBit : Nat) :
    6 * tBit < 8 * roundDiv (3 * tBit) 4 + 4 ∧ 8 * roundDiv (3 * tBit) 4 ≤ 6 * tBit + 4 := by
  unfold roundDiv
  omega

/-- Three eighths of a bit period to the nearest tick, the high part of a 0 bit. -/
theorem roundDiv_three_eighths (tBit : Nat) :
    6 * tBit < 16 * roundDiv (3 * tBit) 8 + 8 ∧ 16 * roundDiv (3 * tBit) 8 ≤ 6 * tBit + 8 := by
  unfold roundDiv
  omega

/-- Settles O36: the high parts are within half a tick of their shares of the bit period, and so strictly between 0 and
all of it from 3 ticks on. -/
theorem derivedStrapsAreLegal : Obligations.DerivedStrapsAreLegal := by
  intro fTickHz baud tGap bidir h3 hmax hgap
  unfold Straps.derive
  generalize roundDiv fTickHz baud = tBit at h3 hmax
  have hone := roundDiv_three_quarters tBit
  have hzero := roundDiv_three_eighths tBit
  have h1h := tick_toNat (n := roundDiv (3 * tBit) 4) (by omega)
  have h1l := tick_toNat (n := tBit - roundDiv (3 * tBit) 4) (by omega)
  have h0h := tick_toNat (n := roundDiv (3 * tBit) 8) (by omega)
  have h0l := tick_toNat (n := tBit - roundDiv (3 * tBit) 8) (by omega)
  simp only [Straps.Legal, Straps.DefaultRatios, Straps.tBit, h1h, h1l, h0h, h0l]
  omega

-- The machine right after reset

/-- The straps at power-on are legal by their definition, those of REF80 by their numbers. -/
theorem straps_legal (ch : Nat) : (Config.straps ch).Legal := by
  unfold Config.straps
  split
  · assumption
  · exact (by decide : (Straps.ref80 false).Legal)

/-- Every channel of the machine right after reset is in its reset state. -/
theorem eq_reset_of_mem_channels {c : Channel} (h : c ∈ State.reset.channels) : ∃ ch, c = Channel.reset ch := by
  rcases (State.reset.mem_channels).mp h with h | rfl | h
  · cases h
  · exact ⟨0, rfl⟩
  · obtain ⟨k, -, rfl⟩ := List.mem_map.mp h
    exact ⟨k + 1, rfl⟩

/-- Settles O37: every channel is in its reset state, whose fields are these. -/
theorem resetStateIsAwaitingReset : Obligations.ResetStateIsAwaitingReset := by
  refine ⟨?_, fun c hc => ?_⟩
  · rw [State.channels_length]
    omega
  · obtain ⟨ch, rfl⟩ := eq_reset_of_mem_channels hc
    exact ⟨rfl, rfl, rfl, rfl, rfl, straps_legal ch, Nat.le_add_left 1 _⟩

/-- Settles O38: every channel is silent, with nothing in its buffer, and nothing is offered to it. -/
theorem resetStateHasTheInvariant : Obligations.ResetStateHasTheInvariant := by
  intro c hc
  obtain ⟨ch, rfl⟩ := eq_reset_of_mem_channels hc
  exact Channel.BufferOk.inv_of_silent ⟨Memory.wf_nil, List.forall_mem_nil _, Nat.le_add_left 1 _⟩ rfl (fun _ => rfl)
    (absurd rfl)

end Sys2Proof.Machine
